-- ==== Sys2Proof/Word.lean ====
section
/-! DEFINITION. The word types of the core (00_scope.md R10, R13).

Every register, immediate, pc value and memory cell is a 32-bit vector. `+` and `-` on `BitVec`
are addition and subtraction modulo 2^32, which is what R13 asks of them. -/

namespace Sys2Proof

/-- A register value, immediate, pc value, instruction word or memory cell (R13). -/
abbrev Word := BitVec 32

/-- A register number as an instruction encodes it: a 5-bit field (R30). -/
abbrev RegIdx := BitVec 5

/-- One byte of the word stream that a host may build words from (R67). -/
abbrev Byte := BitVec 8

end Sys2Proof
end

