-- ==== Sys2Proof/Config.lean ====
section
/-! DEFINITION. What is fixed when the machine is created and no step changes (00_scope.md R10,
10_state.md R45): the memory capacity, which the spec leaves OPEN, and the x0 switch. -/

namespace Sys2Proof

/-- The two parameters of the core that its steps read (R10). The third, `STEP_BOUND`, belongs to
the host's `run` and is an argument of it (Machine/HostInterface.lean). -/
structure Config where
  /-- `MEM_CAPACITY`: how many cells memory has. -/
  memCapacity : Nat
  /-- `X0_HARDWIRED`: `false` on this hardware, `true` for the strict-RV32I variant (R31). -/
  x0Hardwired : Bool
  deriving DecidableEq, Repr

/-- The configurations the spec allows: 1 <= `MEM_CAPACITY` <= 2^32, either value of the switch. -/
def Config.legal (c : Config) : Bool :=
  decide (1 ≤ c.memCapacity) && decide (c.memCapacity ≤ 2 ^ 32)

/-- The configuration `State.reset` is created with. `X0_HARDWIRED = false` is this hardware's value
(R10). DESIGN CHOICE (notes/assumptions/1.md): the spec leaves `MEM_CAPACITY` open, and the largest
value it allows is taken here, so that every address exists. Unsafe: no statement rests on it. -/
def Config.hardware : Config where
  memCapacity := 2 ^ 32
  x0Hardwired := false

end Sys2Proof
end

