-- ==== Sys2Proof/Machine/State.lean ====
section
/-! DEFINITION. The architectural state (10_state.md), the fault kinds and records it holds
(60_exceptions.md R200, R201), and the reset state (R46, R240). -/

namespace Sys2Proof.Machine

/-- What can end a step outside the state: nothing. The core reports every fault inside its state,
in `faults` and `fatal`, and `execute` never fails (60_exceptions.md R219); so this type has no
constructor, and no step of the model faults. The core's own six fault kinds are `FaultKind`. -/
inductive Fault where
  deriving DecidableEq, Repr

/-- Why the model has no meaning for an instruction. -/
inductive Refusal where
  /-- Raised only by an arm of `exec` whose instruction has no meaning yet. No arm raises it: every
  instruction of the table has its meaning. Safe: the model would stop where the core goes on. -/
  | notModelled (mnemonic : String)
  deriving DecidableEq, Repr

/-- The six fault kinds (R200). -/
inductive FaultKind where
  | decodeFault
  | execFault
  | fetchOutOfBounds
  | loadOutOfBounds
  | storeOutOfBounds
  | misalignedTarget
  deriving DecidableEq, Repr

/-- What a fault of a kind does after its record is logged (R203). -/
inductive FaultPolicy where
  /-- R204: go on at `pc + 4`. -/
  | skip
  /-- R205: the run ends in Faulted. -/
  | stop
  deriving DecidableEq, Repr

/-- A fault record (R201): the kind, the faulting instruction's address, its word, and the faulting
address. -/
structure FaultRecord where
  kind : FaultKind
  pc : Word
  word : Word
  addr : Word
  deriving DecidableEq, Repr

/-- The run status, derived from `halted` and `fatal` (R41). -/
inductive RunStatus where
  | running
  | halted
  | faulted
  deriving DecidableEq, Repr

/-- Memory as plain data: the cells that do not hold 0, each with its byte address, addresses
strictly rising. A cell holds 32 bits (20_memory.md R60), so an entry is an address and a word; the
cells of unlisted addresses hold 0, their value at reset (R46). -/
abbrev Memory := List (Nat × Word)

/-- The whole state of the core (R45), with the two parameters that are fixed when it is created. -/
structure State where
  /-- `MEM_CAPACITY` and `X0_HARDWIRED`: set by `create`, changed by no step (R45, R240). -/
  config : Config
  /-- The program counter, an unsigned byte address (R35). -/
  pc : Word
  /-- The 32 general registers, x0 among them (R30, R31). -/
  regs : Vector Word 32
  /-- The halted flag (R40). -/
  halted : Bool
  /-- The fatal-fault state: the record of the Stop fault that ended the run, if one did (R41). -/
  fatal : Option FaultRecord
  /-- The fault log, oldest record first (R42). -/
  faults : List FaultRecord
  /-- Memory (R43). -/
  mem : Memory
  deriving DecidableEq, Repr

/-- The state right after `create_state` (R46, R240). -/
def State.create (c : Config) : State where
  config := c
  pc := 0
  regs := Vector.replicate 32 0
  halted := false
  fatal := none
  faults := []
  mem := []

/-- The reset state of this hardware. Its `MEM_CAPACITY` is the model's choice
(notes/assumptions/1.md); every other field has the value R46 gives. -/
def State.reset : State := State.create Config.hardware

end Sys2Proof.Machine
end

