-- ==== Sys2Proof/Machine/Ops.lean ====
section
/-! DEFINITION. The named operations over registers, pc, memory and fault state: the primitives of
00_scope.md R15, the fault-raising operation of 60_exceptions.md R202, and the guard of R248. -/

namespace Sys2Proof.Machine

/-! ## Status -/

/-- R41. -/
def State.status (s : State) : RunStatus :=
  if s.halted then .halted
  else if s.fatal.isSome then .faulted
  else .running

/-! ## Registers and pc -/

/-- `regs[i]`, the register's own contents, which `inspect` shows (R50). -/
def State.rawReg (s : State) (i : RegIdx) : Word :=
  s.regs[i.toNat]'i.isLt

/-- `x[i]` (R32): x0 reads 0 in the strict variant, and what it holds on this hardware. -/
def State.readReg (s : State) (i : RegIdx) : Word :=
  if s.config.x0Hardwired = true ∧ i = 0 then 0 else s.rawReg i

/-- `x[i] <- v` (R33): the strict variant drops a write to x0; this hardware keeps it. -/
def State.writeReg (s : State) (i : RegIdx) (v : Word) : State :=
  if s.config.x0Hardwired = true ∧ i = 0 then s
  else { s with regs := s.regs.set i.toNat v i.isLt }

def State.setPc (s : State) (target : Word) : State :=
  { s with pc := target }

/-- The address of the next instruction in memory, modulo 2^32 (R36). -/
def State.nextPc (s : State) : Word :=
  s.pc + 4

/-- R36: an instruction that does not set `pc` ends with `pc <- pc + 4`. -/
def State.advance (s : State) : State :=
  s.setPc s.nextPc

/-- `halt` (R40): `pc` is unchanged. -/
def State.halt (s : State) : State :=
  { s with halted := true }

/-! ## Memory cells (20_memory.md R60) -/

/-- The cell at an address; an unlisted one holds 0. -/
def Memory.read : Memory → Nat → Word
  | [], _ => 0
  | (b, u) :: rest, a => if a = b then u else Memory.read rest a

/-- Memory without any entry for `a`. -/
def Memory.erase (m : Memory) (a : Nat) : Memory :=
  m.filter (fun entry => entry.1 != a)

/-- Put an entry before the first one whose address is higher. -/
def Memory.insert : Memory → Nat → Word → Memory
  | [], a, v => [(a, v)]
  | (b, u) :: rest, a, v =>
    if a < b then (a, v) :: (b, u) :: rest else (b, u) :: Memory.insert rest a v

/-- Replace the cell at `a` by `v`, keeping the canonical form: writing 0 removes the entry. -/
def Memory.write (m : Memory) (a : Nat) (v : Word) : Memory :=
  if v = 0 then m.erase a else (m.erase a).insert a v

/-- The canonical form: addresses strictly rising, no entry holding what an unlisted one reads as. -/
def Memory.wf (m : Memory) : Bool :=
  decide (m.Pairwise (fun e f => e.1 < f.1)) && m.all (fun e => e.2 != 0)

/-- The cell at an address, as the state holds it. -/
def State.cell (s : State) (a : Nat) : Word :=
  Memory.read s.mem a

def State.setCell (s : State) (a : Nat) (v : Word) : State :=
  { s with mem := Memory.write s.mem a v }

/-- R62: an address is in bounds exactly when its unsigned reading is below the capacity. -/
def State.inBounds (s : State) (a : Word) : Bool :=
  decide (a.toNat < s.config.memCapacity)

/-- The three access widths (R70). -/
inductive Width where
  | byte
  | half
  | word
  deriving DecidableEq, Repr

/-- The value masked to the width, zero-extended (R64, R65). -/
def Width.mask : Width → Word → Word
  | .byte, v => (v.extractLsb' 0 8).setWidth 32
  | .half, v => (v.extractLsb' 0 16).setWidth 32
  | .word, v => v

/-- `Fetch(pc)` (R63): the whole cell, or nothing when `pc` is out of bounds. -/
def State.fetch (s : State) : Option Word :=
  if s.inBounds s.pc then some (s.cell s.pc.toNat) else none

/-- `MemRead(a, n)` (R64): nothing when `a` is out of bounds. -/
def State.memRead (s : State) (a : Word) (n : Width) : Option Word :=
  if s.inBounds a then some (n.mask (s.cell a.toNat)) else none

/-- `MemWrite(a, n, v)` (R65): the whole cell is replaced; nothing when `a` is out of bounds. -/
def State.memWrite (s : State) (a : Word) (n : Width) (v : Word) : Option State :=
  if s.inBounds a then some (s.setCell a.toNat (n.mask v)) else none

/-! ## Faults (60_exceptions.md) -/

/-- The fault's code (R200). No instruction reads it. -/
def FaultKind.code : FaultKind → Nat
  | .decodeFault => 1
  | .execFault => 2
  | .fetchOutOfBounds => 3
  | .loadOutOfBounds => 4
  | .storeOutOfBounds => 5
  | .misalignedTarget => 6

/-- R203. -/
def FaultKind.policy : FaultKind → FaultPolicy
  | .decodeFault => .skip
  | .execFault => .skip
  | .fetchOutOfBounds => .stop
  | .loadOutOfBounds => .stop
  | .storeOutOfBounds => .stop
  | .misalignedTarget => .stop

/-- Append a record to the fault log (R202). -/
def State.logFault (s : State) (r : FaultRecord) : State :=
  { s with faults := s.faults ++ [r] }

/-- `raise F(pc, word, addr)` (R202): log the record, then apply the kind's policy. Skip goes on at
`pc + 4` (R204); Stop sets `fatal` and leaves `pc` alone (R205). It is applied to the state the
instruction began with, so a faulting instruction has written no register and no cell. -/
def State.raise (s : State) (kind : FaultKind) (word addr : Word) : State :=
  let r : FaultRecord := { kind := kind, pc := s.pc, word := word, addr := addr }
  match kind.policy with
  | .skip => (s.logFault r).advance
  | .stop => { s.logFault r with fatal := some r }

/-! ## The guard of every instruction -/

/-- R248: executing in a state that is not Running returns the state unchanged; in a Running one
the instruction's effect `t` is the next state. -/
def whenRunning (s t : State) : Host.Outcome State Fault Refusal :=
  .next (if s.status = .running then t else s)

end Sys2Proof.Machine
end

