-- ==== Sys2Proof/Machine/Operands.lean ====
section
/-! DEFINITION. The operand forms: the one addressing mode of loads and stores, and the targets of
control transfers. Register and immediate operands need no more than `State.readReg` and the
decoded immediate. -/

namespace Sys2Proof.Machine

/-- `EA = x[rs1] + imm`, modulo 2^32 (20_memory.md R74, 42_load_store.md R176). -/
def effectiveAddress (s : State) (rs1 : RegIdx) (imm : Word) : Word :=
  s.readReg rs1 + imm

/-- The target of JAL, BEQ and BNE: relative to the instruction's own address (41_control.md R157). -/
def relativeTarget (s : State) (imm : Word) : Word :=
  s.pc + imm

/-- The target of JALR: relative to `pc`, not to `x[rs1]`, with bit 0 cleared (R151). -/
def jalrTarget (s : State) (imm : Word) : Word :=
  (s.pc + imm) &&& 0xFFFFFFFE

/-- A target is a multiple of 4 (R154). -/
def isAligned (target : Word) : Bool :=
  target.extractLsb' 0 2 == 0

end Sys2Proof.Machine
end

