-- ==== Sys2Proof/Machine/Alu.lean ====
section
/-! DEFINITION. ADD, SUB, ADDI, LUI, AUIPC (40_alu.md). -/

namespace Sys2Proof.Machine

/-- What the five share: the result goes to `rd`, and `pc` moves on by 4 (R36). The result is
computed from the state the instruction began with (00_scope.md R16). -/
def execAlu (rd : RegIdx) (result : Word) (s : State) : Host.Outcome State Fault Refusal :=
  whenRunning s (s.writeReg rd result).advance

/-- R130. -/
def execAdd (rd rs1 rs2 : RegIdx) (s : State) : Host.Outcome State Fault Refusal :=
  execAlu rd (s.readReg rs1 + s.readReg rs2) s

/-- R131. -/
def execSub (rd rs1 rs2 : RegIdx) (s : State) : Host.Outcome State Fault Refusal :=
  execAlu rd (s.readReg rs1 - s.readReg rs2) s

/-- R132. -/
def execAddi (rd rs1 : RegIdx) (imm : Word) (s : State) : Host.Outcome State Fault Refusal :=
  execAlu rd (s.readReg rs1 + imm) s

/-- R133. -/
def execLui (rd : RegIdx) (imm : Word) (s : State) : Host.Outcome State Fault Refusal :=
  execAlu rd imm s

/-- R134: `pc` is the instruction's own address. -/
def execAuipc (rd : RegIdx) (imm : Word) (s : State) : Host.Outcome State Fault Refusal :=
  execAlu rd (s.pc + imm) s

end Sys2Proof.Machine
end

