-- ==== Sys2Proof/Syntax.lean ====
section
/-! DEFINITION. The instructions: one constructor per row of spec/opcode_table.json.

An immediate is held as the decoder reconstructs it, a 32-bit value (30_encoding.md R99 to R103);
WellFormed.lean says which values each format can encode. -/

namespace Sys2Proof

/-- The 16 instructions (00_scope.md R3), with the operands their formats populate. -/
inductive Instr where
  /-- R130. -/
  | add (rd rs1 rs2 : RegIdx)
  /-- R131. -/
  | sub (rd rs1 rs2 : RegIdx)
  /-- R132. -/
  | addi (rd rs1 : RegIdx) (imm : Word)
  /-- R133. -/
  | lui (rd : RegIdx) (imm : Word)
  /-- R134. -/
  | auipc (rd : RegIdx) (imm : Word)
  /-- R150. -/
  | jal (rd : RegIdx) (imm : Word)
  /-- R151. `rs1` is populated by the decoder and read by nothing. -/
  | jalr (rd rs1 : RegIdx) (imm : Word)
  /-- R152. -/
  | beq (rs1 rs2 : RegIdx) (imm : Word)
  /-- R153. -/
  | bne (rs1 rs2 : RegIdx) (imm : Word)
  /-- R170. -/
  | lb (rd rs1 : RegIdx) (imm : Word)
  /-- R171. -/
  | lh (rd rs1 : RegIdx) (imm : Word)
  /-- R172. -/
  | lw (rd rs1 : RegIdx) (imm : Word)
  /-- R173. -/
  | sb (rs1 rs2 : RegIdx) (imm : Word)
  /-- R174. -/
  | sh (rs1 rs2 : RegIdx) (imm : Word)
  /-- R175. -/
  | sw (rs1 rs2 : RegIdx) (imm : Word)
  /-- R190: every word of the debug-break class. Its I-type fields are populated and read by nothing. -/
  | ebreak (rd : RegIdx) (func3 : BitVec 3) (rs1 : RegIdx) (imm : Word)
  deriving DecidableEq, Repr

end Sys2Proof
end

