-- ==== Sys2Proof/WellFormed.lean ====
section
/-! DEFINITION. Which immediates each format can encode: the ranges of 30_encoding.md R99 to R103.
The register and func3 fields need no check, since their types have the fields' widths. -/

namespace Sys2Proof

/-- I-type and S-type: -2048 to 2047 (R99, R100). -/
def fitsImm12 (v : Word) : Bool :=
  decide (-2048 ≤ v.toInt) && decide (v.toInt ≤ 2047)

/-- B-type: -4096 to 4094, even (R101). -/
def fitsImmB (v : Word) : Bool :=
  decide (-4096 ≤ v.toInt) && decide (v.toInt ≤ 4094) && decide (v.toInt % 2 = 0)

/-- U-type: the multiples of 4096 (R102). -/
def fitsImmU (v : Word) : Bool :=
  decide (v.toNat % 4096 = 0)

/-- J-type: -1048576 to 1048574, even (R103). -/
def fitsImmJ (v : Word) : Bool :=
  decide (-1048576 ≤ v.toInt) && decide (v.toInt ≤ 1048574) && decide (v.toInt % 2 = 0)

/-- The instruction has an encoding: its immediate is one its format can hold. -/
def Instr.wellFormed : Instr → Bool
  | .add _ _ _ => true
  | .sub _ _ _ => true
  | .addi _ _ imm => fitsImm12 imm
  | .lui _ imm => fitsImmU imm
  | .auipc _ imm => fitsImmU imm
  | .jal _ imm => fitsImmJ imm
  | .jalr _ _ imm => fitsImm12 imm
  | .beq _ _ imm => fitsImmB imm
  | .bne _ _ imm => fitsImmB imm
  | .lb _ _ imm => fitsImm12 imm
  | .lh _ _ imm => fitsImm12 imm
  | .lw _ _ imm => fitsImm12 imm
  | .sb _ _ imm => fitsImm12 imm
  | .sh _ _ imm => fitsImm12 imm
  | .sw _ _ imm => fitsImm12 imm
  | .ebreak _ _ _ imm => fitsImm12 imm

end Sys2Proof
end

