-- ==== Sys2Proof/Decode.lean ====
section
/-! DEFINITION. Field extraction, immediates, the total decoder and its secondary selection, and the
encoder that inverts them (30_encoding.md). The selector and func3 values stand once, in the tables
of section 1; decoder and encoder both read them (93_implementation_defined.md U8). -/

namespace Sys2Proof

/-! ## 1. The selector and function values (R104, R108) -/

def selAluRegReg : BitVec 7 := 0b0110011
def selAluRegImm : BitVec 7 := 0b0010011
def selJal : BitVec 7 := 0b1101111
def selJalr : BitVec 7 := 0b1100111
def selBranch : BitVec 7 := 0b1100011
def selLoad : BitVec 7 := 0b0000011
def selStore : BitVec 7 := 0b0100011
def selDebugBreak : BitVec 7 := 0b1110011
def selLui : BitVec 7 := 0b0110111
def selAuipc : BitVec 7 := 0b0010111

/-- func3 of ADD, SUB, ADDI and JALR. -/
def f3Zero : BitVec 3 := 0b000
def f3Beq : BitVec 3 := 0b000
def f3Bne : BitVec 3 := 0b001
def f3Byte : BitVec 3 := 0b000
def f3Half : BitVec 3 := 0b001
def f3Word : BitVec 3 := 0b010
def f7Add : BitVec 7 := 0b0000000
def f7Sub : BitVec 7 := 0b0100000

/-! ## 2. Fields (R91) and immediates (R99 to R103) -/

def opcodeField (w : Word) : BitVec 7 := w.extractLsb' 0 7
def rdField (w : Word) : RegIdx := w.extractLsb' 7 5
def func3Field (w : Word) : BitVec 3 := w.extractLsb' 12 3
def rs1Field (w : Word) : RegIdx := w.extractLsb' 15 5
def rs2Field (w : Word) : RegIdx := w.extractLsb' 20 5
def func7Field (w : Word) : BitVec 7 := w.extractLsb' 25 7

/-- R99. -/
def immI (w : Word) : Word :=
  (w.extractLsb' 20 12).signExtend 32

/-- R100. -/
def immS (w : Word) : Word :=
  (w.extractLsb' 25 7 ++ w.extractLsb' 7 5).signExtend 32

/-- R101. -/
def immB (w : Word) : Word :=
  (w.extractLsb' 31 1 ++ w.extractLsb' 7 1 ++ w.extractLsb' 25 6 ++ w.extractLsb' 8 4
    ++ 0#1).signExtend 32

/-- R102. -/
def immU (w : Word) : Word :=
  w.extractLsb' 12 20 ++ 0#12

/-- R103. -/
def immJ (w : Word) : Word :=
  (w.extractLsb' 31 1 ++ w.extractLsb' 12 8 ++ w.extractLsb' 20 1 ++ w.extractLsb' 21 10
    ++ 0#1).signExtend 32

/-! ## 3. The decoder (R104, R105) -/

/-- The ten opcode classes and the explicit "unrecognized" (R104). -/
inductive OpClass where
  | aluRegReg | aluRegImm | jal | jalr | branch | load | store | debugBreak | lui | auipc
  | unrecognized
  deriving DecidableEq, Repr

/-- The class a 7-bit selector selects; every value outside the ten is unrecognized (R104). -/
def classOf (op : BitVec 7) : OpClass :=
  if op = selAluRegReg then .aluRegReg
  else if op = selAluRegImm then .aluRegImm
  else if op = selJal then .jal
  else if op = selJalr then .jalr
  else if op = selBranch then .branch
  else if op = selLoad then .load
  else if op = selStore then .store
  else if op = selDebugBreak then .debugBreak
  else if op = selLui then .lui
  else if op = selAuipc then .auipc
  else .unrecognized

/-- A decoded instruction, with the source's field names (R17). It is not state (R44). -/
structure Decoded where
  opClass : OpClass
  rd : RegIdx
  func3 : BitVec 3
  rs1 : RegIdx
  rs2 : RegIdx
  func7 : BitVec 7
  imm : Word
  deriving DecidableEq, Repr

/-- R105: total and pure; a field the class does not populate is 0 (R92). -/
def decodeFields (w : Word) : Decoded :=
  match classOf (opcodeField w) with
  | .aluRegReg => ⟨.aluRegReg, rdField w, func3Field w, rs1Field w, rs2Field w, func7Field w, 0⟩
  | .aluRegImm => ⟨.aluRegImm, rdField w, func3Field w, rs1Field w, 0, 0, immI w⟩
  | .jalr => ⟨.jalr, rdField w, func3Field w, rs1Field w, 0, 0, immI w⟩
  | .debugBreak => ⟨.debugBreak, rdField w, func3Field w, rs1Field w, 0, 0, immI w⟩
  | .load => ⟨.load, rdField w, func3Field w, rs1Field w, 0, 0, immI w⟩
  | .store => ⟨.store, 0, func3Field w, rs1Field w, rs2Field w, 0, immS w⟩
  | .branch => ⟨.branch, 0, func3Field w, rs1Field w, rs2Field w, 0, immB w⟩
  | .lui => ⟨.lui, rdField w, 0, 0, 0, 0, immU w⟩
  | .auipc => ⟨.auipc, rdField w, 0, 0, 0, 0, immU w⟩
  | .jal => ⟨.jal, rdField w, 0, 0, 0, 0, immJ w⟩
  | .unrecognized => ⟨.unrecognized, 0, 0, 0, 0, 0, 0⟩

/-- Why a word is no instruction (R111). -/
inductive Reject where
  /-- The selector names no class: executing the word is a DECODE_FAULT (R106). -/
  | unrecognizedSelector
  /-- A known class with a func3 or func7 it does not list: executing it is an EXEC_FAULT (R109). -/
  | unrecognizedFunction
  deriving DecidableEq, Repr

/-- The executor's selection of the instruction by class, func3 and func7 (R107, R108, R247). -/
def selectInstr (d : Decoded) : Except Reject Instr :=
  match d.opClass with
  | .unrecognized => .error .unrecognizedSelector
  | .aluRegReg =>
    if d.func3 = f3Zero ∧ d.func7 = f7Add then .ok (.add d.rd d.rs1 d.rs2)
    else if d.func3 = f3Zero ∧ d.func7 = f7Sub then .ok (.sub d.rd d.rs1 d.rs2)
    else .error .unrecognizedFunction
  | .aluRegImm =>
    if d.func3 = f3Zero then .ok (.addi d.rd d.rs1 d.imm) else .error .unrecognizedFunction
  | .lui => .ok (.lui d.rd d.imm)
  | .auipc => .ok (.auipc d.rd d.imm)
  | .jal => .ok (.jal d.rd d.imm)
  | .jalr =>
    if d.func3 = f3Zero then .ok (.jalr d.rd d.rs1 d.imm) else .error .unrecognizedFunction
  | .branch =>
    if d.func3 = f3Beq then .ok (.beq d.rs1 d.rs2 d.imm)
    else if d.func3 = f3Bne then .ok (.bne d.rs1 d.rs2 d.imm)
    else .error .unrecognizedFunction
  | .load =>
    if d.func3 = f3Byte then .ok (.lb d.rd d.rs1 d.imm)
    else if d.func3 = f3Half then .ok (.lh d.rd d.rs1 d.imm)
    else if d.func3 = f3Word then .ok (.lw d.rd d.rs1 d.imm)
    else .error .unrecognizedFunction
  | .store =>
    if d.func3 = f3Byte then .ok (.sb d.rs1 d.rs2 d.imm)
    else if d.func3 = f3Half then .ok (.sh d.rs1 d.rs2 d.imm)
    else if d.func3 = f3Word then .ok (.sw d.rs1 d.rs2 d.imm)
    else .error .unrecognizedFunction
  | .debugBreak => .ok (.ebreak d.rd d.func3 d.rs1 d.imm)

/-- The instruction a word is, or why it is none. Total on every word. -/
def decode (w : Word) : Except Reject Instr :=
  selectInstr (decodeFields w)

/-! ## 4. The encoder (R114) -/

def encR (f7 : BitVec 7) (rs2 rs1 : RegIdx) (f3 : BitVec 3) (rd : RegIdx) (op : BitVec 7) : Word :=
  f7 ++ rs2 ++ rs1 ++ f3 ++ rd ++ op

def encI (imm : Word) (rs1 : RegIdx) (f3 : BitVec 3) (rd : RegIdx) (op : BitVec 7) : Word :=
  imm.extractLsb' 0 12 ++ rs1 ++ f3 ++ rd ++ op

def encS (imm : Word) (rs2 rs1 : RegIdx) (f3 : BitVec 3) (op : BitVec 7) : Word :=
  imm.extractLsb' 5 7 ++ rs2 ++ rs1 ++ f3 ++ imm.extractLsb' 0 5 ++ op

def encB (imm : Word) (rs2 rs1 : RegIdx) (f3 : BitVec 3) (op : BitVec 7) : Word :=
  imm.extractLsb' 12 1 ++ imm.extractLsb' 5 6 ++ rs2 ++ rs1 ++ f3 ++ imm.extractLsb' 1 4
    ++ imm.extractLsb' 11 1 ++ op

def encU (imm : Word) (rd : RegIdx) (op : BitVec 7) : Word :=
  imm.extractLsb' 12 20 ++ rd ++ op

def encJ (imm : Word) (rd : RegIdx) (op : BitVec 7) : Word :=
  imm.extractLsb' 20 1 ++ imm.extractLsb' 1 10 ++ imm.extractLsb' 11 1 ++ imm.extractLsb' 12 8
    ++ rd ++ op

/-- The word of an instruction. A fault record's `word` (60_exceptions.md R201) is this word: where
the decoder gives `i` for the fetched word, that word is `encode i`. -/
def encode : Instr → Word
  | .add rd rs1 rs2 => encR f7Add rs2 rs1 f3Zero rd selAluRegReg
  | .sub rd rs1 rs2 => encR f7Sub rs2 rs1 f3Zero rd selAluRegReg
  | .addi rd rs1 imm => encI imm rs1 f3Zero rd selAluRegImm
  | .lui rd imm => encU imm rd selLui
  | .auipc rd imm => encU imm rd selAuipc
  | .jal rd imm => encJ imm rd selJal
  | .jalr rd rs1 imm => encI imm rs1 f3Zero rd selJalr
  | .beq rs1 rs2 imm => encB imm rs2 rs1 f3Beq selBranch
  | .bne rs1 rs2 imm => encB imm rs2 rs1 f3Bne selBranch
  | .lb rd rs1 imm => encI imm rs1 f3Byte rd selLoad
  | .lh rd rs1 imm => encI imm rs1 f3Half rd selLoad
  | .lw rd rs1 imm => encI imm rs1 f3Word rd selLoad
  | .sb rs1 rs2 imm => encS imm rs2 rs1 f3Byte selStore
  | .sh rs1 rs2 imm => encS imm rs2 rs1 f3Half selStore
  | .sw rs1 rs2 imm => encS imm rs2 rs1 f3Word selStore
  | .ebreak rd func3 rs1 imm => encI imm rs1 func3 rd selDebugBreak

/-! ## 5. The table of match and mask (R113) -/

/-- The bits of a word that select the instruction. -/
def Instr.encodingMask : Instr → Word
  | .add _ _ _ => 0xFE00707F
  | .sub _ _ _ => 0xFE00707F
  | .addi _ _ _ => 0x0000707F
  | .lui _ _ => 0x0000007F
  | .auipc _ _ => 0x0000007F
  | .jal _ _ => 0x0000007F
  | .jalr _ _ _ => 0x0000707F
  | .beq _ _ _ => 0x0000707F
  | .bne _ _ _ => 0x0000707F
  | .lb _ _ _ => 0x0000707F
  | .lh _ _ _ => 0x0000707F
  | .lw _ _ _ => 0x0000707F
  | .sb _ _ _ => 0x0000707F
  | .sh _ _ _ => 0x0000707F
  | .sw _ _ _ => 0x0000707F
  | .ebreak _ _ _ _ => 0x0000007F

/-- What those bits are. -/
def Instr.encodingMatch : Instr → Word
  | .add _ _ _ => 0x00000033
  | .sub _ _ _ => 0x40000033
  | .addi _ _ _ => 0x00000013
  | .lui _ _ => 0x00000037
  | .auipc _ _ => 0x00000017
  | .jal _ _ => 0x0000006F
  | .jalr _ _ _ => 0x00000067
  | .beq _ _ _ => 0x00000063
  | .bne _ _ _ => 0x00001063
  | .lb _ _ _ => 0x00000003
  | .lh _ _ _ => 0x00001003
  | .lw _ _ _ => 0x00002003
  | .sb _ _ _ => 0x00000023
  | .sh _ _ _ => 0x00001023
  | .sw _ _ _ => 0x00002023
  | .ebreak _ _ _ _ => 0x00000073

/-! ## 6. Words from bytes, and the host's table words -/

/-- R67: byte 0 of each group of four is bits 7:0 of the word. -/
def wordOfBytes (b0 b1 b2 b3 : Byte) : Word :=
  b3 ++ b2 ++ b1 ++ b0

/-- The words of a byte stream (R67); a stream whose length is no multiple of 4 has none. -/
def wordsOfBytes : List Byte → Option (List Word)
  | [] => some []
  | b0 :: b1 :: b2 :: b3 :: rest => (wordsOfBytes rest).map (wordOfBytes b0 b1 b2 b3 :: ·)
  | _ => none

/-- The word whose low `nbits` bits are those of `w`, every bit above them 0. -/
def tableWord (nbits w : Nat) : Word :=
  BitVec.ofNat 32 (w % 2 ^ nbits)

/-- The instruction the decoder reads from a word numbered as spec/opcode_table.json numbers it.
Every instruction is one 32-bit word (R90), so longer ones are none. -/
def decodeTableWord (nbits w : Nat) : Option Instr :=
  if nbits ≤ 32 then
    match decode (tableWord nbits w) with
    | .ok i => some i
    | .error _ => none
  else none

end Sys2Proof
end

