-- ==== Sys2Proof/Machine/Flags.lean ====
section
/-! DEFINITION. Conditions. The core has no condition codes and no instruction sets a flag
(10_state.md R38), so there is no flag to compute: branches compare two registers directly, all 32
bits of them (41_control.md R152, R153). -/

namespace Sys2Proof.Machine

/-- The condition of BEQ. -/
def regsEqual (s : State) (rs1 rs2 : RegIdx) : Bool :=
  s.readReg rs1 == s.readReg rs2

/-- The condition of BNE. -/
def regsDiffer (s : State) (rs1 rs2 : RegIdx) : Bool :=
  s.readReg rs1 != s.readReg rs2

end Sys2Proof.Machine
end

