-- ==== Sys2Proof/Machine/Control.lean ====
section
/-! DEFINITION. JAL, JALR, BEQ, BNE (41_control.md). -/

namespace Sys2Proof.Machine

/-- A taken control transfer to `target`, after the writes `linked` has made to the state `s` the
instruction began with. The target is checked before any write: a misaligned one raises
MISALIGNED_TARGET on `s` itself (R154). -/
def transfer (word target : Word) (linked s : State) : State :=
  if isAligned target then linked.setPc target else s.raise .misalignedTarget word target

/-- R150. -/
def execJal (rd : RegIdx) (imm : Word) (s : State) : Host.Outcome State Fault Refusal :=
  whenRunning s
    (transfer (encode (.jal rd imm)) (relativeTarget s imm) (s.writeReg rd s.nextPc) s)

/-- R151: `rs1` reaches only the word of a fault record. -/
def execJalr (rd rs1 : RegIdx) (imm : Word) (s : State) : Host.Outcome State Fault Refusal :=
  whenRunning s
    (transfer (encode (.jalr rd rs1 imm)) (jalrTarget s imm) (s.writeReg rd s.nextPc) s)

/-- What the two branches share: a branch that is not taken checks nothing and goes on at `pc + 4`
(R154, R36). -/
def branchTo (taken : Bool) (word target : Word) (s : State) : State :=
  if taken then transfer word target s s else s.advance

/-- R152. -/
def execBeq (rs1 rs2 : RegIdx) (imm : Word) (s : State) : Host.Outcome State Fault Refusal :=
  whenRunning s
    (branchTo (regsEqual s rs1 rs2) (encode (.beq rs1 rs2 imm)) (relativeTarget s imm) s)

/-- R153. -/
def execBne (rs1 rs2 : RegIdx) (imm : Word) (s : State) : Host.Outcome State Fault Refusal :=
  whenRunning s
    (branchTo (regsDiffer s rs1 rs2) (encode (.bne rs1 rs2 imm)) (relativeTarget s imm) s)

end Sys2Proof.Machine
end

