-- ==== Sys2Proof/Machine/LoadStore.lean ====
section
/-! DEFINITION. LB, LH, LW, SB, SH, SW (42_load_store.md). -/

namespace Sys2Proof.Machine

/-- What the three loads share (R178, R179): the effective address, the bounds check, the
zero-extended read, then the register write and the advance. -/
def execLoad (n : Width) (word : Word) (rd rs1 : RegIdx) (imm : Word) (s : State) :
    Host.Outcome State Fault Refusal :=
  whenRunning s
    (match s.memRead (effectiveAddress s rs1 imm) n with
     | some v => (s.writeReg rd v).advance
     | none => s.raise .loadOutOfBounds word (effectiveAddress s rs1 imm))

/-- R170. -/
def execLb (rd rs1 : RegIdx) (imm : Word) (s : State) : Host.Outcome State Fault Refusal :=
  execLoad .byte (encode (.lb rd rs1 imm)) rd rs1 imm s

/-- R171. -/
def execLh (rd rs1 : RegIdx) (imm : Word) (s : State) : Host.Outcome State Fault Refusal :=
  execLoad .half (encode (.lh rd rs1 imm)) rd rs1 imm s

/-- R172. -/
def execLw (rd rs1 : RegIdx) (imm : Word) (s : State) : Host.Outcome State Fault Refusal :=
  execLoad .word (encode (.lw rd rs1 imm)) rd rs1 imm s

/-- What the three stores share (R179): the effective address, the bounds check, the replacement of
the whole cell, then the advance. -/
def execStore (n : Width) (word : Word) (rs1 rs2 : RegIdx) (imm : Word) (s : State) :
    Host.Outcome State Fault Refusal :=
  whenRunning s
    (match s.memWrite (effectiveAddress s rs1 imm) n (s.readReg rs2) with
     | some t => t.advance
     | none => s.raise .storeOutOfBounds word (effectiveAddress s rs1 imm))

/-- R173. -/
def execSb (rs1 rs2 : RegIdx) (imm : Word) (s : State) : Host.Outcome State Fault Refusal :=
  execStore .byte (encode (.sb rs1 rs2 imm)) rs1 rs2 imm s

/-- R174. -/
def execSh (rs1 rs2 : RegIdx) (imm : Word) (s : State) : Host.Outcome State Fault Refusal :=
  execStore .half (encode (.sh rs1 rs2 imm)) rs1 rs2 imm s

/-- R175. -/
def execSw (rs1 rs2 : RegIdx) (imm : Word) (s : State) : Host.Outcome State Fault Refusal :=
  execStore .word (encode (.sw rs1 rs2 imm)) rs1 rs2 imm s

end Sys2Proof.Machine
end

