-- ==== Sys2Proof/Machine/System.lean ====
section
/-! DEFINITION. EBREAK, the whole debug-break class (43_system.md R190, R192). -/

namespace Sys2Proof.Machine

/-- R190: sets `halted`, leaves `pc`; no field of the word is read. -/
def execEbreak (s : State) : Host.Outcome State Fault Refusal :=
  whenRunning s s.halt

end Sys2Proof.Machine
end

