-- ==== Sys2Proof/Machine/Fetch.lean ====
section
/-! DEFINITION. Everything a step does before it executes an instruction: the checks 1 to 4 of
60_exceptions.md R206, in that order. -/

namespace Sys2Proof.Machine

/-- The fault kind of a word that is no instruction (R106, R109). -/
def rejectKind : Reject → FaultKind
  | .unrecognizedSelector => .decodeFault
  | .unrecognizedFunction => .execFault

/-- The instruction the step runs, or else the state the step ends in without running one: a state
that is not Running is returned unchanged (R248); a fetch out of bounds raises FETCH_OUT_OF_BOUNDS
with word 0 and address `pc` (R63); a word that is no instruction raises DECODE_FAULT or EXEC_FAULT
with address 0 (R247). -/
def fetchDecode (s : State) : Except State Instr :=
  if s.status = .running then
    match s.fetch with
    | none => .error (s.raise .fetchOutOfBounds 0 s.pc)
    | some w =>
      match decode w with
      | .ok i => .ok i
      | .error r => .error (s.raise (rejectKind r) w 0)
  else .error s

/-- The state with a word in the cell at `pc`, where the next step fetches. A `pc` out of bounds has
no cell (R62), and the state is left as it is. -/
def placeWord (s : State) (w : Word) : State :=
  if s.inBounds s.pc then s.setCell s.pc.toNat w else s

end Sys2Proof.Machine
end

