-- ==== Sys2Proof/Machine/Assembler.lean ====
section
/-! DEFINITION. How instructions are written down, and what the pseudo-instructions stand for
(30_encoding.md R115, R116). No step uses this file. -/

namespace Sys2Proof.Machine

/-! ## Instructions as text (R115) -/

def regText (i : RegIdx) : String := "x" ++ toString i.toNat

/-- A register destination and two register sources, or any other three operands. -/
def threeText (name a b c : String) : String := name ++ " " ++ a ++ ", " ++ b ++ ", " ++ c

/-- A register and a displacement from a base register. -/
def basedText (name a : String) (imm : Word) (base : RegIdx) : String :=
  name ++ " " ++ a ++ ", " ++ toString imm.toInt ++ "(" ++ regText base ++ ")"

/-- The operand of LUI and AUIPC is the value of bits 31:12; that of a jump or branch is the byte
offset from its own address. The fields of a debug-break word are not written. -/
def instrText : Instr → String
  | .add rd rs1 rs2 => threeText "add" (regText rd) (regText rs1) (regText rs2)
  | .sub rd rs1 rs2 => threeText "sub" (regText rd) (regText rs1) (regText rs2)
  | .addi rd rs1 imm => threeText "addi" (regText rd) (regText rs1) (toString imm.toInt)
  | .lui rd imm => "lui " ++ regText rd ++ ", " ++ toString (imm.toNat / 4096)
  | .auipc rd imm => "auipc " ++ regText rd ++ ", " ++ toString (imm.toNat / 4096)
  | .jal rd imm => "jal " ++ regText rd ++ ", " ++ toString imm.toInt
  | .jalr rd rs1 imm => basedText "jalr" (regText rd) imm rs1
  | .beq rs1 rs2 imm => threeText "beq" (regText rs1) (regText rs2) (toString imm.toInt)
  | .bne rs1 rs2 imm => threeText "bne" (regText rs1) (regText rs2) (toString imm.toInt)
  | .lb rd rs1 imm => basedText "lb" (regText rd) imm rs1
  | .lh rd rs1 imm => basedText "lh" (regText rd) imm rs1
  | .lw rd rs1 imm => basedText "lw" (regText rd) imm rs1
  | .sb rs1 rs2 imm => basedText "sb" (regText rs2) imm rs1
  | .sh rs1 rs2 imm => basedText "sh" (regText rs2) imm rs1
  | .sw rs1 rs2 imm => basedText "sw" (regText rs2) imm rs1
  | .ebreak _ _ _ _ => "ebreak"

/-! ## Pseudo-instructions (R116)

Those that stand for words of this hardware's instructions. The others (`not`, `seqz`, `blt` and so
on) stand for EXEC_FAULT words, `fence` for a DECODE_FAULT word, and `ecall` and the CSR forms for
debug-break words, which the decoder treats as it does any such word. -/

inductive Pseudo where
  | nop
  | mv (rd rs : RegIdx)
  | li (rd : RegIdx) (imm : Word)
  | la (rd : RegIdx) (sym : Word)
  | neg (rd rs : RegIdx)
  | j (offset : Word)
  | jalLink (offset : Word)
  | jr (rs : RegIdx)
  | ret
  | call (sym : Word)
  | beqz (rs : RegIdx) (offset : Word)
  | bnez (rs : RegIdx) (offset : Word)
  deriving DecidableEq, Repr

/-- `lo12 = sext_12(v[11:0])`. -/
def loPart (v : Word) : Word := (v.extractLsb' 0 12).signExtend 32

/-- `hi20 = (v - lo12)[31:12]`, in its place as a U-type immediate. -/
def hiPart (v : Word) : Word := (v - loPart v).extractLsb' 12 20 ++ 0#12

/-- What a pseudo-instruction at address `here` expands to. A symbol stands for its address, and
`la` and `call` reach it relative to the AUIPC. On this hardware `ret`, `jr` and `call` do not go
where RV32I's would, since JALR does not read its base register. -/
def Pseudo.expand (here : Word) : Pseudo → List Instr
  | .nop => [.addi 0 0 0]
  | .mv rd rs => [.addi rd rs 0]
  | .li rd imm =>
    if fitsImm12 imm then [.addi rd 0 imm] else [.lui rd (hiPart imm), .addi rd rd (loPart imm)]
  | .la rd sym => [.auipc rd (hiPart (sym - here)), .addi rd rd (loPart (sym - here))]
  | .neg rd rs => [.sub rd 0 rs]
  | .j offset => [.jal 0 offset]
  | .jalLink offset => [.jal 1 offset]
  | .jr rs => [.jalr 0 rs 0]
  | .ret => [.jalr 0 1 0]
  | .call sym => [.auipc 1 (hiPart (sym - here)), .jalr 1 1 (loPart (sym - here))]
  | .beqz rs offset => [.beq rs 0 offset]
  | .bnez rs offset => [.bne rs 0 offset]

end Sys2Proof.Machine
end

