-- ==== Sys2Proof/Machine/HostInterface.lean ====
section
/-! DEFINITION. The four operations of the host interface (70_reset_and_hazards.md R250):
`create_state`, `load_program`, `run` and `inspect`. None of them is a move of the core. -/

namespace Sys2Proof.Machine

/-- `create_state(memory_capacity)` (R240): a reset state, or nothing for a capacity the interface
does not allow. Allocation failure of the host's own memory leaves no state to model
(60_exceptions.md R220). -/
def createState (c : Config) : Option State :=
  if c.legal = true then some (State.create c) else none

/-- Word `k` of the sequence goes to cell `base + 4 * k`; the cells between are not written. -/
def placeWords (s : State) (base : Nat) : List Word → State
  | [] => s
  | w :: rest => placeWords (s.setCell base w) (base + 4) rest

/-- `load_program(memory, base_address, words)` (R243): it changes only memory. Nothing is the
loader error: a word would land at or beyond the capacity, and the run does not start. -/
def loadProgram (s : State) (base : Word) (words : List Word) : Option State :=
  if words = [] ∨ base.toNat + 4 * (words.length - 1) < s.config.memCapacity then
    some (placeWords s base.toNat words)
  else none

/-- What `run` reports beside the state (R252). -/
inductive RunResult where
  | halted
  | faulted (r : FaultRecord)
  | boundReached
  deriving DecidableEq, Repr

/-- The outcome of a run that has stopped in `s` (R252, R218). -/
def runResult (s : State) : RunResult :=
  match s.status, s.fatal with
  | .faulted, some r => .faulted r
  | .halted, _ => .halted
  | _, _ => .boundReached

/-- `run` with a step bound (R252, R255): steps while the status is Running and the bound is not
reached. A step that had no next state would end the run as the step did; none has. -/
def run : Nat → State → Host.Outcome (State × RunResult) Fault Refusal
  | 0, s => .next (s, runResult s)
  | n + 1, s =>
    if s.status = .running then
      match step s with
      | .next t => run n t
      | .fault f => .fault f
      | .refused r => .refused r
    else .next (s, runResult s)

/-- `run` without a bound ends in `t` with outcome `r` (R249): some number of steps reaches a state
that is Halted or Faulted. A run for which no such number exists is a hang. -/
def RunEnds (s t : State) (r : RunResult) : Prop :=
  ∃ n, run n s = .next (t, r) ∧ t.status ≠ .running

/-- `inspect(state)` (R50): a read-only snapshot of `pc` and the raw registers. -/
def inspect (s : State) : Word × Vector Word 32 :=
  (s.pc, s.regs)

end Sys2Proof.Machine
end

