-- ==== Sys2Proof/Safety.lean ====
section
/-! DEFINITION. What holds of every state a run reaches, and what the host may conclude at its end. -/

namespace Sys2Proof.Machine

/-- The invariant of the core, for states of any allowed configuration. -/
def State.Inv (s : State) : Prop :=
  -- the configuration is one the spec allows (00_scope.md R10)
  s.config.legal = true ∧
  -- `pc` is a multiple of 4, Faulted states included (10_state.md R37)
  s.pc.toNat % 4 = 0 ∧
  -- `halted` and `fatal != none` are never both true (R41)
  ¬ (s.halted = true ∧ s.fatal.isSome = true) ∧
  -- `fatal` is the last record of the log, of a Stop kind (60_exceptions.md R202, R205)
  (∀ r, s.fatal = some r → s.faults.getLast? = some r ∧ r.kind.policy = .stop) ∧
  -- a Stop record in the log is the one that ended the run
  (∀ r ∈ s.faults, r.kind.policy = .stop → s.fatal = some r) ∧
  -- memory is in its canonical form, and every listed cell is one of the `MEM_CAPACITY` (R43)
  Memory.wf s.mem = true ∧
  (∀ e ∈ s.mem, e.1 < s.config.memCapacity) ∧
  -- the strict variant's x0 holds 0 (R31)
  (s.config.x0Hardwired = true → s.rawReg 0 = 0)

/-- R218: the run "ran to halt" cleanly. -/
def State.EndedCleanly (s : State) : Prop :=
  s.status = .halted ∧ s.faults = []

end Sys2Proof.Machine
end

