-- ==== Sys2Proof/Certificates/Slice0/Obligations.lean ====
section
/-! DEFINITION. What is claimed of the core, for the provers. Every statement ranges over every
state, so over every memory capacity and both settings of the x0 switch; none rests on the capacity
`State.reset` is created with (notes/assumptions/1.md). -/

open Sys2Proof Sys2Proof.Machine

namespace Sys2Proof.Claims

/-! ## Words for what a step leaves behind -/

/-- Every register is unchanged but `rd`, which holds `v`; where x0 is hard-wired a write to it has
no effect (10_state.md R33). -/
def RegWritten (s t : State) (rd : RegIdx) (v : Word) : Prop :=
  ∀ r, t.rawReg r =
    if r = rd ∧ ¬ (s.config.x0Hardwired = true ∧ rd = 0) then v else s.rawReg r

/-- Every register is unchanged. -/
def SameRegs (s t : State) : Prop := ∀ r, t.rawReg r = s.rawReg r

/-- Every cell of memory is unchanged. -/
def SameCells (s t : State) : Prop := ∀ a, t.cell a = s.cell a

/-- The cell at `a` holds `v`, and every other cell is unchanged. -/
def CellWritten (s t : State) (a : Word) (v : Word) : Prop :=
  t.cell a.toNat = v ∧ ∀ b, b ≠ a.toNat → t.cell b = s.cell b

/-- The halted flag, the fatal-fault state, the fault log and the configuration are unchanged. -/
def SameRun (s t : State) : Prop :=
  t.halted = s.halted ∧ t.fatal = s.fatal ∧ t.faults = s.faults ∧ t.config = s.config

/-- `t` is `s` with `rd` written and `pc` at `target`, and nothing else changed. -/
def WritesReg (s t : State) (rd : RegIdx) (v target : Word) : Prop :=
  RegWritten s t rd v ∧ t.pc = target ∧ SameCells s t ∧ SameRun s t

/-- `t` is `s` with the cell at `a` written and `pc` moved on by 4, and nothing else changed. -/
def WritesCell (s t : State) (a v : Word) : Prop :=
  CellWritten s t a v ∧ t.pc = s.pc + 4 ∧ SameRegs s t ∧ SameRun s t

/-- `t` is `s` with `pc` at `target`, and nothing else changed. -/
def OnlyPc (s t : State) (target : Word) : Prop :=
  t.pc = target ∧ SameRegs s t ∧ SameCells s t ∧ SameRun s t

/-- A Skip fault (60_exceptions.md R202, R204): one record is appended, with address 0, and `pc`
moves on by 4. -/
def Skips (s t : State) (kind : FaultKind) (word : Word) : Prop :=
  t.faults = s.faults ++ [⟨kind, s.pc, word, 0⟩] ∧ t.pc = s.pc + 4 ∧
  SameRegs s t ∧ SameCells s t ∧
  t.halted = s.halted ∧ t.fatal = s.fatal ∧ t.config = s.config

/-- A Stop fault (R202, R205): one record is appended and is the fatal one, the status becomes
Faulted, and `pc`, registers and memory are as before. -/
def Stops (s t : State) (kind : FaultKind) (word addr : Word) : Prop :=
  t.faults = s.faults ++ [⟨kind, s.pc, word, addr⟩] ∧
  t.fatal = some ⟨kind, s.pc, word, addr⟩ ∧ t.pc = s.pc ∧
  SameRegs s t ∧ SameCells s t ∧
  t.halted = s.halted ∧ t.config = s.config ∧ t.status = .faulted

/-- The check an instruction fails when it executes in `s`, by the kind of its fault and the faulting
address (60_exceptions.md R201, R206): a taken transfer to a target that is not a multiple of 4, or a
load or store at or beyond the capacity. -/
def Fails (s : State) (kind : FaultKind) (addr : Word) : Instr → Prop
  | .jal _ imm => kind = .misalignedTarget ∧ addr = s.pc + imm ∧ addr.toNat % 4 ≠ 0
  | .jalr _ _ imm =>
    kind = .misalignedTarget ∧ addr = (s.pc + imm) &&& 0xFFFFFFFE ∧ addr.toNat % 4 ≠ 0
  | .beq rs1 rs2 imm => s.readReg rs1 = s.readReg rs2 ∧
    kind = .misalignedTarget ∧ addr = s.pc + imm ∧ addr.toNat % 4 ≠ 0
  | .bne rs1 rs2 imm => s.readReg rs1 ≠ s.readReg rs2 ∧
    kind = .misalignedTarget ∧ addr = s.pc + imm ∧ addr.toNat % 4 ≠ 0
  | .lb _ rs1 imm | .lh _ rs1 imm | .lw _ rs1 imm =>
    kind = .loadOutOfBounds ∧ addr = s.readReg rs1 + imm ∧ s.config.memCapacity ≤ addr.toNat
  | .sb rs1 _ imm | .sh rs1 _ imm | .sw rs1 _ imm =>
    kind = .storeOutOfBounds ∧ addr = s.readReg rs1 + imm ∧ s.config.memCapacity ≤ addr.toNat
  | .add _ _ _ | .sub _ _ _ | .addi _ _ _ | .lui _ _ | .auipc _ _ | .ebreak _ _ _ _ => False

/-- The fault a step from `s` meets, by the record it is to leave (R200, R201): a fetch out of
bounds, a word that is no instruction, or a check the fetched instruction fails. -/
def Meets (s : State) (r : FaultRecord) : Prop :=
  r.pc = s.pc ∧
  ((s.config.memCapacity ≤ s.pc.toNat ∧ r.kind = .fetchOutOfBounds ∧ r.word = 0 ∧ r.addr = s.pc) ∨
   (s.pc.toNat < s.config.memCapacity ∧ r.word = s.cell s.pc.toNat ∧
    ((decode r.word = .error .unrecognizedSelector ∧ r.kind = .decodeFault ∧ r.addr = 0) ∨
     (decode r.word = .error .unrecognizedFunction ∧ r.kind = .execFault ∧ r.addr = 0) ∨
     ∃ i, decode r.word = .ok i ∧ Fails s r.kind r.addr i)))

/-- The unsigned number in bits `lo` to `lo + n - 1` of a word. -/
def field (w : Word) (lo n : Nat) : Nat := w.toNat / 2 ^ lo % 2 ^ n

end Sys2Proof.Claims

open Sys2Proof.Claims

/-! ## The instructions, each in a Running state: its result, its frame, its next state

Each says that `exec` answers a next state. The premises are only those under which the rule gives
the instruction its own effect: Running, and an aligned target or an address in bounds where it has
one. -/

/-- R130: the sum, modulo 2^32, goes to `rd`; both operands are read before the write. -/
def Obligations.AddWritesSum : Prop :=
  ∀ (rd rs1 rs2 : RegIdx) (s : State), s.status = .running →
    ∃ t, exec (.add rd rs1 rs2) s = .next t ∧
      WritesReg s t rd (s.readReg rs1 + s.readReg rs2) (s.pc + 4)

/-- R131. -/
def Obligations.SubWritesDifference : Prop :=
  ∀ (rd rs1 rs2 : RegIdx) (s : State), s.status = .running →
    ∃ t, exec (.sub rd rs1 rs2) s = .next t ∧
      WritesReg s t rd (s.readReg rs1 - s.readReg rs2) (s.pc + 4)

/-- R132. -/
def Obligations.AddiWritesSum : Prop :=
  ∀ (rd rs1 : RegIdx) (imm : Word) (s : State), s.status = .running →
    ∃ t, exec (.addi rd rs1 imm) s = .next t ∧
      WritesReg s t rd (s.readReg rs1 + imm) (s.pc + 4)

/-- R133. -/
def Obligations.LuiWritesImmediate : Prop :=
  ∀ (rd : RegIdx) (imm : Word) (s : State), s.status = .running →
    ∃ t, exec (.lui rd imm) s = .next t ∧ WritesReg s t rd imm (s.pc + 4)

/-- R134: `pc` is the instruction's own address. -/
def Obligations.AuipcWritesPcPlusImmediate : Prop :=
  ∀ (rd : RegIdx) (imm : Word) (s : State), s.status = .running →
    ∃ t, exec (.auipc rd imm) s = .next t ∧ WritesReg s t rd (s.pc + imm) (s.pc + 4)

/-- R150: `pc + 4` goes to `rd` and `pc` to `pc + imm`. -/
def Obligations.JalLinksAndJumps : Prop :=
  ∀ (rd : RegIdx) (imm : Word) (s : State), s.status = .running →
    (s.pc + imm).toNat % 4 = 0 →
    ∃ t, exec (.jal rd imm) s = .next t ∧ WritesReg s t rd (s.pc + 4) (s.pc + imm)

/-- R151: the target is `pc + imm` with bit 0 cleared, whatever `rs1` is and holds. -/
def Obligations.JalrLinksAndJumpsFromPc : Prop :=
  ∀ (rd rs1 : RegIdx) (imm : Word) (s : State), s.status = .running →
    ((s.pc + imm) &&& 0xFFFFFFFE).toNat % 4 = 0 →
    ∃ t, exec (.jalr rd rs1 imm) s = .next t ∧
      WritesReg s t rd (s.pc + 4) ((s.pc + imm) &&& 0xFFFFFFFE)

/-- R152: a branch not taken checks no target. -/
def Obligations.BeqBranchesWhenEqual : Prop :=
  ∀ (rs1 rs2 : RegIdx) (imm : Word) (s : State), s.status = .running →
    (s.readReg rs1 = s.readReg rs2 → (s.pc + imm).toNat % 4 = 0) →
    ∃ t, exec (.beq rs1 rs2 imm) s = .next t ∧
      OnlyPc s t (if s.readReg rs1 = s.readReg rs2 then s.pc + imm else s.pc + 4)

/-- R153. -/
def Obligations.BneBranchesWhenDifferent : Prop :=
  ∀ (rs1 rs2 : RegIdx) (imm : Word) (s : State), s.status = .running →
    (s.readReg rs1 ≠ s.readReg rs2 → (s.pc + imm).toNat % 4 = 0) →
    ∃ t, exec (.bne rs1 rs2 imm) s = .next t ∧
      OnlyPc s t (if s.readReg rs1 = s.readReg rs2 then s.pc + 4 else s.pc + imm)

/-- R170: bits 7:0 of the cell at the effective address, zero-extended. -/
def Obligations.LbLoadsLowByte : Prop :=
  ∀ (rd rs1 : RegIdx) (imm : Word) (s : State), s.status = .running →
    (effectiveAddress s rs1 imm).toNat < s.config.memCapacity →
    ∃ t, exec (.lb rd rs1 imm) s = .next t ∧
      WritesReg s t rd (s.cell (effectiveAddress s rs1 imm).toNat &&& 0xFF) (s.pc + 4)

/-- R171: bits 15:0, zero-extended. -/
def Obligations.LhLoadsLowHalf : Prop :=
  ∀ (rd rs1 : RegIdx) (imm : Word) (s : State), s.status = .running →
    (effectiveAddress s rs1 imm).toNat < s.config.memCapacity →
    ∃ t, exec (.lh rd rs1 imm) s = .next t ∧
      WritesReg s t rd (s.cell (effectiveAddress s rs1 imm).toNat &&& 0xFFFF) (s.pc + 4)

/-- R172: the whole cell. -/
def Obligations.LwLoadsCell : Prop :=
  ∀ (rd rs1 : RegIdx) (imm : Word) (s : State), s.status = .running →
    (effectiveAddress s rs1 imm).toNat < s.config.memCapacity →
    ∃ t, exec (.lw rd rs1 imm) s = .next t ∧
      WritesReg s t rd (s.cell (effectiveAddress s rs1 imm).toNat) (s.pc + 4)

/-- R173: the whole cell is replaced by the low byte (the spec's own choice, 92 D21). -/
def Obligations.SbReplacesCellByLowByte : Prop :=
  ∀ (rs1 rs2 : RegIdx) (imm : Word) (s : State), s.status = .running →
    (effectiveAddress s rs1 imm).toNat < s.config.memCapacity →
    ∃ t, exec (.sb rs1 rs2 imm) s = .next t ∧
      WritesCell s t (effectiveAddress s rs1 imm) (s.readReg rs2 &&& 0xFF)

/-- R174: the whole cell is replaced by the low half (92 D21). -/
def Obligations.ShReplacesCellByLowHalf : Prop :=
  ∀ (rs1 rs2 : RegIdx) (imm : Word) (s : State), s.status = .running →
    (effectiveAddress s rs1 imm).toNat < s.config.memCapacity →
    ∃ t, exec (.sh rs1 rs2 imm) s = .next t ∧
      WritesCell s t (effectiveAddress s rs1 imm) (s.readReg rs2 &&& 0xFFFF)

/-- R175. -/
def Obligations.SwReplacesCell : Prop :=
  ∀ (rs1 rs2 : RegIdx) (imm : Word) (s : State), s.status = .running →
    (effectiveAddress s rs1 imm).toNat < s.config.memCapacity →
    ∃ t, exec (.sw rs1 rs2 imm) s = .next t ∧
      WritesCell s t (effectiveAddress s rs1 imm) (s.readReg rs2)

/-- R190 (every debug-break word halts: 92 D16): `halted` is set, and everything else, `pc`
included, is as before. -/
def Obligations.EbreakHalts : Prop :=
  ∀ (rd : RegIdx) (func3 : BitVec 3) (rs1 : RegIdx) (imm : Word) (s : State),
    s.status = .running →
    ∃ t, exec (.ebreak rd func3 rs1 imm) s = .next t ∧ t.status = .halted ∧
      t.halted = true ∧ t.pc = s.pc ∧ SameRegs s t ∧ SameCells s t ∧
      t.fatal = s.fatal ∧ t.faults = s.faults ∧ t.config = s.config

/-! ## Where they stop instead -/

/-- R154 (the spec's own choice, 92 D7): a taken transfer to a target that is not a multiple of 4
raises MISALIGNED_TARGET before any write. The record's word is `encode` of the instruction, for
operands no word decodes to as well: the model's choice (log entries 6 and 22), where R201 says the
fetched word. -/
def Obligations.MisalignedTargetStops : Prop :=
  (∀ (rd : RegIdx) (imm : Word) (s : State), s.status = .running →
    (s.pc + imm).toNat % 4 ≠ 0 →
    ∃ t, exec (.jal rd imm) s = .next t ∧
      Stops s t .misalignedTarget (encode (.jal rd imm)) (s.pc + imm)) ∧
  (∀ (rd rs1 : RegIdx) (imm : Word) (s : State), s.status = .running →
    ((s.pc + imm) &&& 0xFFFFFFFE).toNat % 4 ≠ 0 →
    ∃ t, exec (.jalr rd rs1 imm) s = .next t ∧
      Stops s t .misalignedTarget (encode (.jalr rd rs1 imm)) ((s.pc + imm) &&& 0xFFFFFFFE)) ∧
  (∀ (rs1 rs2 : RegIdx) (imm : Word) (s : State), s.status = .running →
    s.readReg rs1 = s.readReg rs2 → (s.pc + imm).toNat % 4 ≠ 0 →
    ∃ t, exec (.beq rs1 rs2 imm) s = .next t ∧
      Stops s t .misalignedTarget (encode (.beq rs1 rs2 imm)) (s.pc + imm)) ∧
  (∀ (rs1 rs2 : RegIdx) (imm : Word) (s : State), s.status = .running →
    s.readReg rs1 ≠ s.readReg rs2 → (s.pc + imm).toNat % 4 ≠ 0 →
    ∃ t, exec (.bne rs1 rs2 imm) s = .next t ∧
      Stops s t .misalignedTarget (encode (.bne rs1 rs2 imm)) (s.pc + imm))

/-- R62, R179 (92 D6): a load at or beyond the capacity writes nothing and ends the run. The record's
word is `encode` of the instruction: the model's choice (log entries 6 and 22), where R201 says the
fetched word. -/
def Obligations.LoadOutOfBoundsStops : Prop :=
  ∀ (rd rs1 : RegIdx) (imm : Word) (s : State), s.status = .running →
    s.config.memCapacity ≤ (effectiveAddress s rs1 imm).toNat →
    (∃ t, exec (.lb rd rs1 imm) s = .next t ∧
      Stops s t .loadOutOfBounds (encode (.lb rd rs1 imm)) (effectiveAddress s rs1 imm)) ∧
    (∃ t, exec (.lh rd rs1 imm) s = .next t ∧
      Stops s t .loadOutOfBounds (encode (.lh rd rs1 imm)) (effectiveAddress s rs1 imm)) ∧
    (∃ t, exec (.lw rd rs1 imm) s = .next t ∧
      Stops s t .loadOutOfBounds (encode (.lw rd rs1 imm)) (effectiveAddress s rs1 imm))

/-- R62, R179 (92 D6): so does a store. The record's word is `encode` of the instruction: the model's
choice (log entries 6 and 22), where R201 says the fetched word. -/
def Obligations.StoreOutOfBoundsStops : Prop :=
  ∀ (rs1 rs2 : RegIdx) (imm : Word) (s : State), s.status = .running →
    s.config.memCapacity ≤ (effectiveAddress s rs1 imm).toNat →
    (∃ t, exec (.sb rs1 rs2 imm) s = .next t ∧
      Stops s t .storeOutOfBounds (encode (.sb rs1 rs2 imm)) (effectiveAddress s rs1 imm)) ∧
    (∃ t, exec (.sh rs1 rs2 imm) s = .next t ∧
      Stops s t .storeOutOfBounds (encode (.sh rs1 rs2 imm)) (effectiveAddress s rs1 imm)) ∧
    (∃ t, exec (.sw rs1 rs2 imm) s = .next t ∧
      Stops s t .storeOutOfBounds (encode (.sw rs1 rs2 imm)) (effectiveAddress s rs1 imm))

/-- R248 (92 D17): neither executing an instruction nor a step changes a Halted or Faulted state. -/
def Obligations.FinishedStateNeverChanges : Prop :=
  ∀ s : State, s.status ≠ .running → step s = .next s ∧ ∀ i, exec i s = .next s

/-! ## A step: fetch, decode, execute -/

/-- R247: in a Running state whose cell at `pc` decodes to an instruction, a step is `exec` of it;
nothing stands around `exec`. -/
def Obligations.StepRunsDecodedInstruction : Prop :=
  ∀ (s : State) (i : Instr), s.status = .running →
    s.pc.toNat < s.config.memCapacity →
    decode (s.cell s.pc.toNat) = .ok i → step s = exec i s

/-- R63: a fetch reads the whole cell at `pc`; at or beyond the capacity the step raises
FETCH_OUT_OF_BOUNDS with word 0 and address `pc`. That this is a Stop fault is R62 and R205, the
spec's own choice (92 D6). -/
def Obligations.FetchReadsCellOrStops : Prop :=
  ∀ s : State,
    (s.pc.toNat < s.config.memCapacity → s.fetch = some (s.cell s.pc.toNat)) ∧
    (s.status = .running → s.config.memCapacity ≤ s.pc.toNat →
      ∃ t, step s = .next t ∧ Stops s t .fetchOutOfBounds 0 s.pc)

/-- R191, R106 (92 D5): a word whose selector names no class is logged and skipped. -/
def Obligations.UnrecognizedSelectorSkips : Prop :=
  ∀ (s : State) (w : Word), s.status = .running → s.fetch = some w →
    opcodeField w ∉ ([0x33, 0x13, 0x6F, 0x67, 0x63, 0x03, 0x23, 0x73, 0x37, 0x17] :
      List (BitVec 7)) →
    ∃ t, step s = .next t ∧ Skips s t .decodeFault w

/-- R130, R131: every word of the ALU-reg-reg class. That any other func3 or func7 is a Skip fault is
what the two rules say, by the spec's own choice (92 D3, D5). -/
def Obligations.AluRegRegClassStep : Prop :=
  ∀ (s : State) (w : Word), s.status = .running → s.fetch = some w →
    opcodeField w = 0b0110011 →
    ∃ t, step s = .next t ∧
      (if func3Field w = 0 ∧ func7Field w = 0 then
        WritesReg s t (rdField w) (s.readReg (rs1Field w) + s.readReg (rs2Field w)) (s.pc + 4)
      else if func3Field w = 0 ∧ func7Field w = 0b0100000 then
        WritesReg s t (rdField w) (s.readReg (rs1Field w) - s.readReg (rs2Field w)) (s.pc + 4)
      else Skips s t .execFault w)

/-- R132: every word of the ALU-reg-imm class (its Skip fault: 92 D3, D5). -/
def Obligations.AluRegImmClassStep : Prop :=
  ∀ (s : State) (w : Word), s.status = .running → s.fetch = some w →
    opcodeField w = 0b0010011 →
    ∃ t, step s = .next t ∧
      (if func3Field w = 0 then
        WritesReg s t (rdField w) (s.readReg (rs1Field w) + immI w) (s.pc + 4)
      else Skips s t .execFault w)

/-- R133, R134: every word of the two upper-immediate classes. -/
def Obligations.UpperImmediateClassStep : Prop :=
  ∀ (s : State) (w : Word), s.status = .running → s.fetch = some w →
    (opcodeField w = 0b0110111 →
      ∃ t, step s = .next t ∧ WritesReg s t (rdField w) (immU w) (s.pc + 4)) ∧
    (opcodeField w = 0b0010111 →
      ∃ t, step s = .next t ∧ WritesReg s t (rdField w) (s.pc + immU w) (s.pc + 4))

/-- R150: every word of the jump-and-link class (its Stop fault: 92 D7). -/
def Obligations.JalClassStep : Prop :=
  ∀ (s : State) (w : Word), s.status = .running → s.fetch = some w →
    opcodeField w = 0b1101111 →
    ∃ t, step s = .next t ∧
      (if (s.pc + immJ w).toNat % 4 = 0 then
        WritesReg s t (rdField w) (s.pc + 4) (s.pc + immJ w)
      else Stops s t .misalignedTarget w (s.pc + immJ w))

/-- R151: every word of the jump-and-link-register class (its faults: 92 D3, D5, D7). -/
def Obligations.JalrClassStep : Prop :=
  ∀ (s : State) (w : Word), s.status = .running → s.fetch = some w →
    opcodeField w = 0b1100111 →
    ∃ t, step s = .next t ∧
      (if func3Field w ≠ 0 then Skips s t .execFault w
      else if ((s.pc + immI w) &&& 0xFFFFFFFE).toNat % 4 = 0 then
        WritesReg s t (rdField w) (s.pc + 4) ((s.pc + immI w) &&& 0xFFFFFFFE)
      else Stops s t .misalignedTarget w ((s.pc + immI w) &&& 0xFFFFFFFE))

/-- R152, R153: every word of the branch class. That another func3 is a Skip fault is R158 and R109,
the spec's own choice (92 D2, D3, D5); so is the Stop fault (92 D7). -/
def Obligations.BranchClassStep : Prop :=
  ∀ (s : State) (w : Word), s.status = .running → s.fetch = some w →
    opcodeField w = 0b1100011 →
    ∃ t, step s = .next t ∧
      (if 2 ≤ (func3Field w).toNat then Skips s t .execFault w
      else if func3Field w = 0 ↔ s.readReg (rs1Field w) = s.readReg (rs2Field w) then
        -- BEQ of equal registers, or BNE of different ones: taken
        if (s.pc + immB w).toNat % 4 = 0 then OnlyPc s t (s.pc + immB w)
        else Stops s t .misalignedTarget w (s.pc + immB w)
      else OnlyPc s t (s.pc + 4))

/-- R170, R171, R172: every word of the load class. That another func3 is a Skip fault is R177 and
R109, the spec's own choice (92 D2, D4, D5); so is the Stop fault (92 D6). -/
def Obligations.LoadClassStep : Prop :=
  ∀ (s : State) (w : Word), s.status = .running → s.fetch = some w →
    opcodeField w = 0b0000011 →
    ∃ t, step s = .next t ∧
      (if 3 ≤ (func3Field w).toNat then Skips s t .execFault w
      else if (s.readReg (rs1Field w) + immI w).toNat < s.config.memCapacity then
        WritesReg s t (rdField w)
          (s.cell (s.readReg (rs1Field w) + immI w).toNat &&&
            (if func3Field w = 0 then 0xFF else if func3Field w = 1 then 0xFFFF else 0xFFFFFFFF))
          (s.pc + 4)
      else Stops s t .loadOutOfBounds w (s.readReg (rs1Field w) + immI w))

/-- R173, R174, R175: every word of the store class. The whole cell is replaced by the spec's own
choice (92 D21). That another func3 is a Skip fault is R177 and R109, the spec's own choice (92 D2,
D4, D5); so is the Stop fault (92 D6). -/
def Obligations.StoreClassStep : Prop :=
  ∀ (s : State) (w : Word), s.status = .running → s.fetch = some w →
    opcodeField w = 0b0100011 →
    ∃ t, step s = .next t ∧
      (if 3 ≤ (func3Field w).toNat then Skips s t .execFault w
      else if (s.readReg (rs1Field w) + immS w).toNat < s.config.memCapacity then
        WritesCell s t (s.readReg (rs1Field w) + immS w)
          (s.readReg (rs2Field w) &&&
            (if func3Field w = 0 then 0xFF else if func3Field w = 1 then 0xFFFF else 0xFFFFFFFF))
      else Stops s t .storeOutOfBounds w (s.readReg (rs1Field w) + immS w))

/-- R190, R192, R110 (92 D16): every word of the debug-break class, ECALL and the CSR forms among
them, halts and changes nothing else. -/
def Obligations.DebugBreakClassHalts : Prop :=
  ∀ (s : State) (w : Word), s.status = .running → s.fetch = some w →
    opcodeField w = 0b1110011 →
    ∃ t, step s = .next t ∧ t.halted = true ∧ t.pc = s.pc ∧ SameRegs s t ∧ SameCells s t ∧
      t.fatal = s.fatal ∧ t.faults = s.faults ∧ t.config = s.config

/-! ## Encoding -/

/-- R114: an encoded well-formed instruction decodes to itself, every operand at every value its
format admits. -/
def Obligations.DecodeEncodeRoundTrip : Prop :=
  ∀ i : Instr, i.wellFormed = true → decode (encode i) = .ok i

/-- R201, R111: a word that decodes to an instruction decodes to a well-formed one, and is its
encoding; so the word a fault record holds is the fetched one. -/
def Obligations.EncodeDecodeRoundTrip : Prop :=
  ∀ (w : Word) (i : Instr), decode w = .ok i → i.wellFormed = true ∧ encode i = w

/-- Section 3 of 30_encoding.md, by arithmetic on the word's fields: the value of each immediate,
and its range. -/
def Obligations.ImmediatesReconstructed : Prop :=
  ∀ w : Word,
    ((immI w).toInt =
        if field w 20 12 < 2048 then (field w 20 12 : Int) else field w 20 12 - 4096) ∧
    ((immS w).toInt =
        if field w 25 7 * 32 + field w 7 5 < 2048 then (field w 25 7 * 32 + field w 7 5 : Int)
        else field w 25 7 * 32 + field w 7 5 - 4096) ∧
    ((immB w).toInt =
        (field w 7 1 * 2048 + field w 25 6 * 32 + field w 8 4 * 2 : Int) - field w 31 1 * 4096) ∧
    ((immU w).toNat = field w 12 20 * 4096) ∧
    ((immJ w).toInt =
        (field w 12 8 * 4096 + field w 20 1 * 2048 + field w 21 10 * 2 : Int)
          - field w 31 1 * 1048576) ∧
    fitsImm12 (immI w) = true ∧ fitsImm12 (immS w) = true ∧ fitsImmB (immB w) = true ∧
    fitsImmU (immU w) = true ∧ fitsImmJ (immJ w) = true

/-- R113: each instruction is selected by its mask and match, and by nothing else. -/
def Obligations.MaskAndMatchSelect : Prop :=
  ∀ w : Word,
    (w &&& 0xFE00707F = 0x00000033 ↔
      decode w = .ok (.add (rdField w) (rs1Field w) (rs2Field w))) ∧
    (w &&& 0xFE00707F = 0x40000033 ↔
      decode w = .ok (.sub (rdField w) (rs1Field w) (rs2Field w))) ∧
    (w &&& 0x0000707F = 0x00000013 ↔
      decode w = .ok (.addi (rdField w) (rs1Field w) (immI w))) ∧
    (w &&& 0x0000007F = 0x00000037 ↔ decode w = .ok (.lui (rdField w) (immU w))) ∧
    (w &&& 0x0000007F = 0x00000017 ↔ decode w = .ok (.auipc (rdField w) (immU w))) ∧
    (w &&& 0x0000007F = 0x0000006F ↔ decode w = .ok (.jal (rdField w) (immJ w))) ∧
    (w &&& 0x0000707F = 0x00000067 ↔
      decode w = .ok (.jalr (rdField w) (rs1Field w) (immI w))) ∧
    (w &&& 0x0000707F = 0x00000063 ↔
      decode w = .ok (.beq (rs1Field w) (rs2Field w) (immB w))) ∧
    (w &&& 0x0000707F = 0x00001063 ↔
      decode w = .ok (.bne (rs1Field w) (rs2Field w) (immB w))) ∧
    (w &&& 0x0000707F = 0x00000003 ↔
      decode w = .ok (.lb (rdField w) (rs1Field w) (immI w))) ∧
    (w &&& 0x0000707F = 0x00001003 ↔
      decode w = .ok (.lh (rdField w) (rs1Field w) (immI w))) ∧
    (w &&& 0x0000707F = 0x00002003 ↔
      decode w = .ok (.lw (rdField w) (rs1Field w) (immI w))) ∧
    (w &&& 0x0000707F = 0x00000023 ↔
      decode w = .ok (.sb (rs1Field w) (rs2Field w) (immS w))) ∧
    (w &&& 0x0000707F = 0x00001023 ↔
      decode w = .ok (.sh (rs1Field w) (rs2Field w) (immS w))) ∧
    (w &&& 0x0000707F = 0x00002023 ↔
      decode w = .ok (.sw (rs1Field w) (rs2Field w) (immS w))) ∧
    (w &&& 0x0000007F = 0x00000073 ↔
      decode w = .ok (.ebreak (rdField w) (func3Field w) (rs1Field w) (immI w)))

/-- R106, R109, R111: a word is rejected as DECODE_FAULT exactly when its selector is none of the
ten, and as EXEC_FAULT exactly when its class is known and its func3 or func7 is not listed. -/
def Obligations.RejectedWordsAreTheListedOnes : Prop :=
  ∀ w : Word,
    (decode w = .error .unrecognizedSelector ↔
      opcodeField w ∉ ([0x33, 0x13, 0x6F, 0x67, 0x63, 0x03, 0x23, 0x73, 0x37, 0x17] :
        List (BitVec 7))) ∧
    (decode w = .error .unrecognizedFunction ↔
      (opcodeField w = 0x33 ∧ ¬ (func3Field w = 0 ∧ (func7Field w = 0 ∨ func7Field w = 0x20))) ∨
      (opcodeField w = 0x13 ∧ func3Field w ≠ 0) ∨
      (opcodeField w = 0x67 ∧ func3Field w ≠ 0) ∨
      (opcodeField w = 0x63 ∧ 2 ≤ (func3Field w).toNat) ∨
      (opcodeField w = 0x03 ∧ 3 ≤ (func3Field w).toNat) ∨
      (opcodeField w = 0x23 ∧ 3 ≤ (func3Field w).toNat))

/-- R104, R105: the class is decided by bits 6:0 alone, and a field the class does not populate
is 0 (R92). -/
def Obligations.DecodedFieldsFollowTheClass : Prop :=
  ∀ w : Word,
    (decodeFields w).opClass = classOf (opcodeField w) ∧
    ((decodeFields w).opClass ∈ [OpClass.store, .branch, .unrecognized] →
      (decodeFields w).rd = 0) ∧
    ((decodeFields w).opClass ∈ [OpClass.lui, .auipc, .jal, .unrecognized] →
      (decodeFields w).func3 = 0 ∧ (decodeFields w).rs1 = 0) ∧
    ((decodeFields w).opClass ∉ [OpClass.aluRegReg, .store, .branch] →
      (decodeFields w).rs2 = 0) ∧
    ((decodeFields w).opClass ≠ .aluRegReg → (decodeFields w).func7 = 0) ∧
    ((decodeFields w).opClass ∈ [OpClass.aluRegReg, .unrecognized] → (decodeFields w).imm = 0)

/-- A few of the spec's words decode to the instructions they stand for (95_test_vectors.md). -/
def Obligations.SampleWordsDecode : Prop :=
  decode 0x002081B3 = .ok (.add 3 1 2) ∧
  decode 0xFFF00093 = .ok (.addi 1 0 (-1)) ∧
  decode 0x123452B7 = .ok (.lui 5 0x12345000) ∧
  decode 0xFFDFF06F = .ok (.jal 0 (-4)) ∧
  decode 0x80000063 = .ok (.beq 0 0 (-4096)) ∧
  decode 0xFE20AFA3 = .ok (.sw 1 2 (-1)) ∧
  decode 0x00100073 = .ok (.ebreak 0 0 0 1) ∧
  decode 0x00000000 = .error .unrecognizedSelector ∧
  decode 0x00004033 = .error .unrecognizedFunction

/-! ## State, memory and reset -/

/-- R240, R46: what reset leaves, for every configuration. That `fatal` and `faults` start empty is
the spec's own choice (92 D19). `State.reset` is that state for this hardware's x0 switch. -/
def Obligations.ResetValues : Prop :=
  (∀ c : Config,
    (State.create c).config = c ∧ (State.create c).pc = 0 ∧
    (∀ r, (State.create c).rawReg r = 0) ∧ (State.create c).halted = false ∧
    (State.create c).fatal = none ∧ (State.create c).faults = [] ∧
    (∀ a, (State.create c).cell a = 0) ∧ (State.create c).status = .running) ∧
  State.reset = State.create State.reset.config ∧ State.reset.config.x0Hardwired = false

/-- R32, R33 (92 D10): a register reads what was last written to it, x0 like any other; in the
strict variant x0 reads 0. -/
def Obligations.RegisterReadsLastWrite : Prop :=
  ∀ (s : State) (i j : RegIdx) (v : Word),
    (s.writeReg i v).readReg j =
      if s.config.x0Hardwired = true ∧ j = 0 then 0 else if j = i then v else s.readReg j

/-- R66, R60, R178: a load from the cell a store wrote, for every pair of widths: the value masked
by the narrower of the two (a hard-wired x0 as the load's `rd` still reads 0). -/
def Obligations.StoreThenLoadRoundTrip : Prop :=
  ∀ (rd rs1 rs2 : RegIdx) (imm : Word) (s : State), s.status = .running →
    (effectiveAddress s rs1 imm).toNat < s.config.memCapacity →
    ∀ (st ld : Width), ∃ t u,
      exec (match st with
        | .byte => .sb rs1 rs2 imm | .half => .sh rs1 rs2 imm | .word => .sw rs1 rs2 imm) s
        = .next t ∧
      exec (match ld with
        | .byte => .lb rd rs1 imm | .half => .lh rd rs1 imm | .word => .lw rd rs1 imm) t
        = .next u ∧
      u.readReg rd =
        if s.config.x0Hardwired = true ∧ rd = 0 then 0
        else s.readReg rs2 &&&
          (if st = .byte ∨ ld = .byte then 0xFF
           else if st = .half ∨ ld = .half then 0xFFFF else 0xFFFFFFFF)

/-- R79, R258, R65 (92 D21): what a store of any width leaves in its cell is what the next fetch from
that cell gets, at once where the cell is the one fetched next, and else at whatever later state `u`
still has that memory. -/
def Obligations.StoreSeenByNextFetch : Prop :=
  ∀ (rs1 rs2 : RegIdx) (imm : Word) (s : State), s.status = .running →
    (effectiveAddress s rs1 imm).toNat < s.config.memCapacity →
    ∀ st : Width, ∃ t v,
      v = s.readReg rs2 &&&
        (match st with | .byte => 0xFF | .half => 0xFFFF | .word => 0xFFFFFFFF) ∧
      exec (match st with
        | .byte => .sb rs1 rs2 imm | .half => .sh rs1 rs2 imm | .word => .sw rs1 rs2 imm) s
        = .next t ∧
      (effectiveAddress s rs1 imm = s.pc + 4 → t.fetch = some v) ∧
      ∀ u, SameCells t u → u.config = t.config → u.pc = effectiveAddress s rs1 imm →
        u.fetch = some v

/-! ## What every step keeps -/

/-- The invariant holds after reset, for every configuration the spec allows. -/
def Obligations.InvariantHoldsAfterReset : Prop :=
  (∀ c : Config, c.legal = true → (State.create c).Inv) ∧ State.reset.Inv

/-- Every step keeps the invariant: `pc` stays a multiple of 4, a Stop record stays the last and
the only one, memory keeps its form and its bounds, a hard-wired x0 stays 0. -/
def Obligations.StepKeepsInvariant : Prop :=
  ∀ s t : State, s.Inv → step s = .next t → t.Inv

/-- R37 (92 D7): every step keeps `pc` a multiple of 4, whatever else the state holds. -/
def Obligations.PcStaysAligned : Prop :=
  ∀ s t : State, s.pc.toNat % 4 = 0 → step s = .next t → t.pc.toNat % 4 = 0

/-- R219: neither `exec` nor a step ever fails, and the fault a Running state meets is recorded in the
state that follows. That every fault is a next state is log entry 5 (DEDUCED); that the record `exec`
leaves holds `encode` of the instruction is log entries 6 and 22; what is recorded and when is the spec's own
choice (92 D14, D15, D19). -/
def Obligations.EveryStepAnswersNext : Prop :=
  (∀ (i : Instr) (s : State), ∃ t, exec i s = .next t ∧
    (s.status = .running → ∀ kind addr, Fails s kind addr i →
      t.faults = s.faults ++ [⟨kind, s.pc, encode i, addr⟩])) ∧
  ∀ s : State, ∃ t, step s = .next t ∧
    (s.status = .running → ∀ r, Meets s r → t.faults = s.faults ++ [r])

/-- R201, R202, R203, R206 (92 D14, D15, D19): a step appends at most one record and removes none.
The record is that of the fault the state meets: its kind, the instruction's address, the fetched word
(0 for a fetch fault) and the faulting address; and its kind's policy is applied: a Skip fault goes on
at `pc + 4`, a Stop fault is fatal; either way no register, cell or `halted` changes. With no record
appended, `fatal` is as before. -/
def Obligations.StepRaisesAtMostOneFault : Prop :=
  ∀ s t : State, step s = .next t →
    (t.faults = s.faults ∧ t.fatal = s.fatal) ∨
    (∃ r : FaultRecord, t.faults = s.faults ++ [r] ∧ s.status = .running ∧ Meets s r ∧
      SameRegs s t ∧ SameCells s t ∧ t.halted = s.halted ∧
      ((r.kind ∈ [FaultKind.decodeFault, .execFault] ∧ t.pc = s.pc + 4 ∧ t.fatal = s.fatal) ∨
        (r.kind ∈ [FaultKind.fetchOutOfBounds, .loadOutOfBounds, .storeOutOfBounds,
            .misalignedTarget] ∧ t.pc = s.pc ∧ t.fatal = some r)))

/-- R40: only a fetched word of the debug-break class sets `halted`, and nothing clears it. -/
def Obligations.OnlyDebugBreakSetsHalted : Prop :=
  ∀ s t : State, step s = .next t →
    (s.halted = true → t.halted = true) ∧
    (s.halted = false → t.halted = true →
      opcodeField (s.cell s.pc.toNat) = 0b1110011 ∧ t.pc = s.pc)

/-- R48: a step changes a cell only by a store, and only the one at its effective address. -/
def Obligations.OnlyStoresChangeMemory : Prop :=
  ∀ (s t : State) (a : Nat), step s = .next t → t.cell a ≠ s.cell a →
    opcodeField (s.cell s.pc.toNat) = 0b0100011 ∧
    a = (s.readReg (rs1Field (s.cell s.pc.toNat)) + immS (s.cell s.pc.toNat)).toNat ∧
    a < s.config.memCapacity

/-- R33, R34: a step changes a register only where the fetched word names it as `rd`, and only for
the classes whose instructions write one. -/
def Obligations.OnlyNamedDestinationChanges : Prop :=
  ∀ (s t : State) (r : RegIdx), step s = .next t → t.rawReg r ≠ s.rawReg r →
    r = rdField (s.cell s.pc.toNat) ∧
    opcodeField (s.cell s.pc.toNat) ∈
      ([0x33, 0x13, 0x37, 0x17, 0x6F, 0x67, 0x03] : List (BitVec 7))

/-- R45, R240: no step changes the capacity or the x0 switch. -/
def Obligations.ConfigurationNeverChanges : Prop :=
  ∀ s t : State, step s = .next t → t.config = s.config

/-! ## The host interface -/

/-- R252, R255 (92 D22): the bound counts steps: with none left a run stops where it is, and else a
run from a Running state takes one step and goes on with one less, whatever the step raised. So a run
of `m + n` steps is a run of `m` carried on for `n`: reaching the bound is no end. A bound that is a
number is log entry 18 (DESIGN CHOICE). -/
def Obligations.RunCarriesOnAfterBound : Prop :=
  (∀ s : State, run 0 s = .next (s, runResult s)) ∧
  (∀ (n : Nat) (s t : State), s.status = .running → step s = .next t → run (n + 1) s = run n t) ∧
  ∀ (m n : Nat) (s t : State) (r : RunResult),
    run m s = .next (t, r) → run (m + n) s = run n t

/-- R252, R218, R248: a finished state is returned at once with its outcome, and a run reports
BoundReached only for a state that is still Running. -/
def Obligations.RunReportsTheStatus : Prop :=
  ∀ (n : Nat) (s : State),
    (s.status ≠ .running → run n s = .next (s, runResult s)) ∧
    ∃ t r, run n s = .next (t, r) ∧
      (r = .boundReached ↔ t.status = .running) ∧
      (r = .halted ↔ t.status = .halted) ∧
      (∀ f, r = .faulted f ↔ t.status = .faulted ∧ t.fatal = some f)

/-- R249: a run without a bound ends in at most one state, with one outcome. Such a run is `RunEnds`
by the model's choice (log entry 18). -/
def Obligations.RunEndIsUnique : Prop :=
  ∀ (s t u : State) (r q : RunResult), RunEnds s t r → RunEnds s u q → t = u ∧ r = q

/-- R249, R255: `beq x0, x0, 0` is a hang, not an end: whatever the bound, the run reaches it in the
state it began with. A run without a bound is `RunEnds` by the model's choice (log entry 18). -/
def Obligations.SelfBranchNeverEnds : Prop :=
  ∀ s : State, s.status = .running → s.pc.toNat < s.config.memCapacity → s.pc.toNat % 4 = 0 →
    s.cell s.pc.toNat = 0x00000063 →
    (∀ n, run n s = .next (s, .boundReached)) ∧ ¬ ∃ t r, RunEnds s t r

/-- R42, R218 (92 D19): no run loses a record of the fault log: not before any state `u` on the way,
nor from there to the end. So where a run ended cleanly, with an empty log, no state on the way, the
first included, held a record. -/
def Obligations.RunKeepsFaultLog : Prop :=
  ∀ (m n : Nat) (s u t : State) (q r : RunResult),
    run m s = .next (u, q) → run (m + n) s = .next (t, r) →
    s.faults <+: u.faults ∧ u.faults <+: t.faults ∧ (t.EndedCleanly → u.faults = [])

/-- R243 (92 D12): word `k` goes to cell `base + 4 * k`, no other cell and nothing but memory
changes, and loading fails exactly when some word would land at or beyond the capacity. That a
failure answers no state, that an empty sequence never fails and that addresses do not wrap at 2^32
is the model's choice (log entry 19). -/
def Obligations.LoadProgramPlacesWords : Prop :=
  ∀ (s : State) (base : Word) (words : List Word),
    (loadProgram s base words = none ↔
      ∃ k, k < words.length ∧ s.config.memCapacity ≤ base.toNat + 4 * k) ∧
    ∀ t, loadProgram s base words = some t →
      (∀ k (h : k < words.length), t.cell (base.toNat + 4 * k) = words[k]) ∧
      (∀ a, (∀ k, k < words.length → a ≠ base.toNat + 4 * k) → t.cell a = s.cell a) ∧
      SameRegs s t ∧ SameRun s t ∧ t.pc = s.pc

/-- R50: `inspect` shows `pc` and the registers' own contents; of a created state it shows 0 in all of
them (R46). Creating succeeds exactly for the capacities R250 allows (92 D11); that it never fails
for want of the host's memory, as R250 and R220 let it, is the model's choice (log entry 18). -/
def Obligations.InspectAndCreate : Prop :=
  (∀ (s : State) (r : RegIdx),
    (inspect s).1 = s.pc ∧ (inspect s).2[r.toNat]? = some (s.rawReg r)) ∧
  (∀ (c : Config) (r : RegIdx),
    (inspect (State.create c)).1 = 0 ∧ (inspect (State.create c)).2[r.toNat]? = some 0) ∧
  ∀ c : Config, createState c =
    if 1 ≤ c.memCapacity ∧ c.memCapacity ≤ 2 ^ 32 then some (State.create c) else none

/-- R116: the two-instruction `li` leaves its operand in `rd` whatever x0 holds, and `la`, executed
at its own address, the address of its symbol; nothing else changes but `pc`, which moves on past
both. R116 gives `la` no `hi20` and `lo12`: that a symbol is its address, reached relative to the
AUIPC, is the model's choice (log entry 24). -/
def Obligations.LiAndLaLoadTheirOperand : Prop :=
  ∀ (rd : RegIdx) (v : Word) (s : State), s.status = .running →
    (fitsImm12 v = false → ∃ i j t u, (Pseudo.li rd v).expand s.pc = [i, j] ∧
      i.wellFormed = true ∧ j.wellFormed = true ∧
      exec i s = .next t ∧ exec j t = .next u ∧ WritesReg s u rd v (s.pc + 8)) ∧
    (∃ i j t u, (Pseudo.la rd v).expand s.pc = [i, j] ∧
      i.wellFormed = true ∧ j.wellFormed = true ∧
      exec i s = .next t ∧ exec j t = .next u ∧ WritesReg s u rd v (s.pc + 8))
end

