-- ==== Sys2Proof/Laws/Encoding.lean ====
section
/-! SUPPORT. The bits of an encoded word, format by format (30_encoding.md R93 to R98, R114). -/

namespace Sys2Proof

theorem encR_bit (f7 : BitVec 7) (rs2 rs1 : RegIdx) (f3 : BitVec 3) (rd : RegIdx) (op : BitVec 7)
    (i : Nat) : (encR f7 rs2 rs1 f3 rd op).getLsbD i =
      if i < 7 then op.getLsbD i
      else if i < 12 then rd.getLsbD (i - 7)
      else if i < 15 then f3.getLsbD (i - 12)
      else if i < 20 then rs1.getLsbD (i - 15)
      else if i < 25 then rs2.getLsbD (i - 20)
      else f7.getLsbD (i - 25) := by
  unfold encR
  simp only [BitVec.getLsbD_append, Nat.sub_sub]
  split_ifs <;> first | rfl | omega

theorem encI_bit (imm : Word) (rs1 : RegIdx) (f3 : BitVec 3) (rd : RegIdx) (op : BitVec 7)
    (i : Nat) : (encI imm rs1 f3 rd op).getLsbD i =
      if i < 7 then op.getLsbD i
      else if i < 12 then rd.getLsbD (i - 7)
      else if i < 15 then f3.getLsbD (i - 12)
      else if i < 20 then rs1.getLsbD (i - 15)
      else if i < 32 then imm.getLsbD (i - 20)
      else false := by
  by_cases hi : i < 32
  · unfold encI
    simp only [BitVec.getLsbD_append, BitVec.getLsbD_extractLsb']
    interval_cases i <;> simp
  · rw [BitVec.getLsbD_of_ge _ _ (by omega)]
    simp only [show ¬ i < 7 by omega, show ¬ i < 12 by omega, show ¬ i < 15 by omega,
      show ¬ i < 20 by omega, hi, if_false]

theorem encS_bit (imm : Word) (rs2 rs1 : RegIdx) (f3 : BitVec 3) (op : BitVec 7)
    (i : Nat) : (encS imm rs2 rs1 f3 op).getLsbD i =
      if i < 7 then op.getLsbD i
      else if i < 12 then imm.getLsbD (i - 7)
      else if i < 15 then f3.getLsbD (i - 12)
      else if i < 20 then rs1.getLsbD (i - 15)
      else if i < 25 then rs2.getLsbD (i - 20)
      else if i < 32 then imm.getLsbD (i - 20)
      else false := by
  by_cases hi : i < 32
  · unfold encS
    simp only [BitVec.getLsbD_append, BitVec.getLsbD_extractLsb']
    interval_cases i <;> simp
  · rw [BitVec.getLsbD_of_ge _ _ (by omega)]
    simp only [show ¬ i < 7 by omega, show ¬ i < 12 by omega, show ¬ i < 15 by omega,
      show ¬ i < 20 by omega, show ¬ i < 25 by omega, hi, if_false]

theorem encB_bit (imm : Word) (rs2 rs1 : RegIdx) (f3 : BitVec 3) (op : BitVec 7)
    (i : Nat) : (encB imm rs2 rs1 f3 op).getLsbD i =
      if i < 7 then op.getLsbD i
      else if i < 8 then imm.getLsbD 11
      else if i < 12 then imm.getLsbD (i - 7)
      else if i < 15 then f3.getLsbD (i - 12)
      else if i < 20 then rs1.getLsbD (i - 15)
      else if i < 25 then rs2.getLsbD (i - 20)
      else if i < 31 then imm.getLsbD (i - 20)
      else if i < 32 then imm.getLsbD 12
      else false := by
  by_cases hi : i < 32
  · unfold encB
    simp only [BitVec.getLsbD_append, BitVec.getLsbD_extractLsb']
    interval_cases i <;> simp
  · rw [BitVec.getLsbD_of_ge _ _ (by omega)]
    simp only [show ¬ i < 7 by omega, show ¬ i < 8 by omega, show ¬ i < 12 by omega,
      show ¬ i < 15 by omega, show ¬ i < 20 by omega, show ¬ i < 25 by omega,
      show ¬ i < 31 by omega, hi, if_false]

theorem encU_bit (imm : Word) (rd : RegIdx) (op : BitVec 7) (i : Nat) :
    (encU imm rd op).getLsbD i =
      if i < 7 then op.getLsbD i
      else if i < 12 then rd.getLsbD (i - 7)
      else if i < 32 then imm.getLsbD i
      else false := by
  by_cases hi : i < 32
  · unfold encU
    simp only [BitVec.getLsbD_append, BitVec.getLsbD_extractLsb']
    interval_cases i <;> simp
  · rw [BitVec.getLsbD_of_ge _ _ (by omega)]
    simp only [show ¬ i < 7 by omega, show ¬ i < 12 by omega, hi, if_false]

theorem encJ_bit (imm : Word) (rd : RegIdx) (op : BitVec 7) (i : Nat) :
    (encJ imm rd op).getLsbD i =
      if i < 7 then op.getLsbD i
      else if i < 12 then rd.getLsbD (i - 7)
      else if i < 20 then imm.getLsbD i
      else if i < 21 then imm.getLsbD 11
      else if i < 31 then imm.getLsbD (i - 20)
      else if i < 32 then imm.getLsbD 20
      else false := by
  by_cases hi : i < 32
  · unfold encJ
    simp only [BitVec.getLsbD_append, BitVec.getLsbD_extractLsb']
    interval_cases i <;> simp
  · rw [BitVec.getLsbD_of_ge _ _ (by omega)]
    simp only [show ¬ i < 7 by omega, show ¬ i < 12 by omega, show ¬ i < 20 by omega,
      show ¬ i < 21 by omega, show ¬ i < 31 by omega, hi, if_false]

end Sys2Proof
end

