-- ==== Sys2Proof/Laws/State.lean ====
section
/-! SUPPORT. One lemma per field per state update, so that no proof unfolds a record update. -/

namespace Sys2Proof.Machine

variable (s : State) (i : RegIdx) (v target : Word) (a : Nat) (r : FaultRecord)

/-! ## create -/

@[simp] theorem State.create_config (c : Config) : (State.create c).config = c := rfl
@[simp] theorem State.create_pc (c : Config) : (State.create c).pc = 0 := rfl
@[simp] theorem State.create_halted (c : Config) : (State.create c).halted = false := rfl
@[simp] theorem State.create_fatal (c : Config) : (State.create c).fatal = none := rfl
@[simp] theorem State.create_faults (c : Config) : (State.create c).faults = [] := rfl
@[simp] theorem State.create_mem (c : Config) : (State.create c).mem = [] := rfl

/-! ## setPc and advance -/

@[simp] theorem State.setPc_config : (s.setPc target).config = s.config := rfl
@[simp] theorem State.setPc_pc : (s.setPc target).pc = target := rfl
@[simp] theorem State.setPc_regs : (s.setPc target).regs = s.regs := rfl
@[simp] theorem State.setPc_halted : (s.setPc target).halted = s.halted := rfl
@[simp] theorem State.setPc_fatal : (s.setPc target).fatal = s.fatal := rfl
@[simp] theorem State.setPc_faults : (s.setPc target).faults = s.faults := rfl
@[simp] theorem State.setPc_mem : (s.setPc target).mem = s.mem := rfl
@[simp] theorem State.setPc_rawReg : (s.setPc target).rawReg i = s.rawReg i := rfl
@[simp] theorem State.setPc_readReg : (s.setPc target).readReg i = s.readReg i := rfl
@[simp] theorem State.setPc_cell : (s.setPc target).cell a = s.cell a := rfl

@[simp] theorem State.advance_config : s.advance.config = s.config := rfl
@[simp] theorem State.advance_pc : s.advance.pc = s.pc + 4 := rfl
@[simp] theorem State.advance_regs : s.advance.regs = s.regs := rfl
@[simp] theorem State.advance_halted : s.advance.halted = s.halted := rfl
@[simp] theorem State.advance_fatal : s.advance.fatal = s.fatal := rfl
@[simp] theorem State.advance_faults : s.advance.faults = s.faults := rfl
@[simp] theorem State.advance_mem : s.advance.mem = s.mem := rfl
@[simp] theorem State.advance_rawReg : s.advance.rawReg i = s.rawReg i := rfl
@[simp] theorem State.advance_readReg : s.advance.readReg i = s.readReg i := rfl
@[simp] theorem State.advance_cell : s.advance.cell a = s.cell a := rfl

/-! ## halt -/

@[simp] theorem State.halt_config : s.halt.config = s.config := rfl
@[simp] theorem State.halt_pc : s.halt.pc = s.pc := rfl
@[simp] theorem State.halt_regs : s.halt.regs = s.regs := rfl
@[simp] theorem State.halt_halted : s.halt.halted = true := rfl
@[simp] theorem State.halt_fatal : s.halt.fatal = s.fatal := rfl
@[simp] theorem State.halt_faults : s.halt.faults = s.faults := rfl
@[simp] theorem State.halt_mem : s.halt.mem = s.mem := rfl
@[simp] theorem State.halt_rawReg : s.halt.rawReg i = s.rawReg i := rfl
@[simp] theorem State.halt_cell : s.halt.cell a = s.cell a := rfl

/-! ## setCell -/

@[simp] theorem State.setCell_config : (s.setCell a v).config = s.config := rfl
@[simp] theorem State.setCell_pc : (s.setCell a v).pc = s.pc := rfl
@[simp] theorem State.setCell_regs : (s.setCell a v).regs = s.regs := rfl
@[simp] theorem State.setCell_halted : (s.setCell a v).halted = s.halted := rfl
@[simp] theorem State.setCell_fatal : (s.setCell a v).fatal = s.fatal := rfl
@[simp] theorem State.setCell_faults : (s.setCell a v).faults = s.faults := rfl
@[simp] theorem State.setCell_mem : (s.setCell a v).mem = Memory.write s.mem a v := rfl
@[simp] theorem State.setCell_rawReg : (s.setCell a v).rawReg i = s.rawReg i := rfl
@[simp] theorem State.setCell_readReg : (s.setCell a v).readReg i = s.readReg i := rfl

/-! ## logFault -/

@[simp] theorem State.logFault_config : (s.logFault r).config = s.config := rfl
@[simp] theorem State.logFault_pc : (s.logFault r).pc = s.pc := rfl
@[simp] theorem State.logFault_regs : (s.logFault r).regs = s.regs := rfl
@[simp] theorem State.logFault_halted : (s.logFault r).halted = s.halted := rfl
@[simp] theorem State.logFault_fatal : (s.logFault r).fatal = s.fatal := rfl
@[simp] theorem State.logFault_faults : (s.logFault r).faults = s.faults ++ [r] := rfl
@[simp] theorem State.logFault_mem : (s.logFault r).mem = s.mem := rfl
@[simp] theorem State.logFault_rawReg : (s.logFault r).rawReg i = s.rawReg i := rfl
@[simp] theorem State.logFault_cell : (s.logFault r).cell a = s.cell a := rfl

/-! ## writeReg -/

@[simp] theorem State.writeReg_config : (s.writeReg i v).config = s.config := by
  unfold State.writeReg; split <;> rfl
@[simp] theorem State.writeReg_pc : (s.writeReg i v).pc = s.pc := by
  unfold State.writeReg; split <;> rfl
@[simp] theorem State.writeReg_halted : (s.writeReg i v).halted = s.halted := by
  unfold State.writeReg; split <;> rfl
@[simp] theorem State.writeReg_fatal : (s.writeReg i v).fatal = s.fatal := by
  unfold State.writeReg; split <;> rfl
@[simp] theorem State.writeReg_faults : (s.writeReg i v).faults = s.faults := by
  unfold State.writeReg; split <;> rfl
@[simp] theorem State.writeReg_mem : (s.writeReg i v).mem = s.mem := by
  unfold State.writeReg; split <;> rfl
@[simp] theorem State.writeReg_cell : (s.writeReg i v).cell a = s.cell a := by
  unfold State.writeReg; split <;> rfl

/-- What a register write does to every register's contents. -/
theorem State.rawReg_writeReg (j : RegIdx) :
    (s.writeReg i v).rawReg j =
      if j = i ∧ ¬ (s.config.x0Hardwired = true ∧ i = 0) then v else s.rawReg j := by
  unfold State.writeReg
  by_cases h : s.config.x0Hardwired = true ∧ i = 0
  · rw [if_pos h, if_neg (fun e => e.2 h)]
  · rw [if_neg h]
    by_cases hij : j = i
    · subst hij
      rw [if_pos ⟨rfl, h⟩]
      exact Vector.getElem_set_self _
    · rw [if_neg (fun e => hij e.1)]
      exact Vector.getElem_set_ne i.isLt j.isLt (fun e => hij (BitVec.eq_of_toNat_eq e.symm))

/-! ## raise -/

@[simp] theorem State.raise_config (k : FaultKind) (w addr : Word) :
    (s.raise k w addr).config = s.config := by
  cases k <;> rfl
@[simp] theorem State.raise_regs (k : FaultKind) (w addr : Word) :
    (s.raise k w addr).regs = s.regs := by
  cases k <;> rfl
@[simp] theorem State.raise_halted (k : FaultKind) (w addr : Word) :
    (s.raise k w addr).halted = s.halted := by
  cases k <;> rfl
@[simp] theorem State.raise_faults (k : FaultKind) (w addr : Word) :
    (s.raise k w addr).faults = s.faults ++ [⟨k, s.pc, w, addr⟩] := by
  cases k <;> rfl
@[simp] theorem State.raise_mem (k : FaultKind) (w addr : Word) :
    (s.raise k w addr).mem = s.mem := by
  cases k <;> rfl
@[simp] theorem State.raise_rawReg (k : FaultKind) (w addr : Word) :
    (s.raise k w addr).rawReg i = s.rawReg i := by
  cases k <;> rfl
@[simp] theorem State.raise_cell (k : FaultKind) (w addr : Word) :
    (s.raise k w addr).cell a = s.cell a := by
  cases k <;> rfl

theorem State.raise_pc (k : FaultKind) (w addr : Word) :
    (s.raise k w addr).pc = if k.policy = .skip then s.pc + 4 else s.pc := by
  cases k <;> rfl

theorem State.raise_fatal (k : FaultKind) (w addr : Word) :
    (s.raise k w addr).fatal =
      if k.policy = .skip then s.fatal else some ⟨k, s.pc, w, addr⟩ := by
  cases k <;> rfl

/-! ## status -/

theorem State.status_running :
    s.status = .running ↔ s.halted = false ∧ s.fatal = none := by
  unfold State.status
  cases s.halted <;> cases s.fatal <;> simp

theorem State.status_halted : s.status = .halted ↔ s.halted = true := by
  unfold State.status
  cases s.halted <;> cases s.fatal <;> simp

theorem State.status_faulted :
    s.status = .faulted ↔ s.halted = false ∧ s.fatal.isSome = true := by
  unfold State.status
  cases s.halted <;> cases s.fatal <;> simp

end Sys2Proof.Machine
end

