-- ==== Sys2Proof/Laws/Memory.lean ====
section
/-! SUPPORT. Memory as a finite map: reading after a write, and the canonical form, which every
memory operation keeps. -/

namespace Sys2Proof.Machine

@[simp] theorem Memory.read_nil (a : Nat) : Memory.read [] a = 0 := rfl

theorem Memory.read_erase (m : Memory) (a b : Nat) :
    (m.erase a).read b = if b = a then 0 else m.read b := by
  induction m with
  | nil => simp [Memory.erase, Memory.read]
  | cons e rest ih =>
    obtain ⟨c, u⟩ := e
    by_cases hc : c = a
    · subst hc
      have : Memory.erase ((c, u) :: rest) c = Memory.erase rest c := by simp [Memory.erase]
      rw [this, ih]
      by_cases hb : b = c <;> simp [hb, Memory.read]
    · have : Memory.erase ((c, u) :: rest) a = (c, u) :: Memory.erase rest a := by
        simp [Memory.erase, hc]
      rw [this, Memory.read, ih, Memory.read]
      by_cases hb : b = a
      · have : a ≠ c := fun h => hc h.symm
        simp [hb, this]
      · simp [hb]

/-- `m` lists no entry for `a`. -/
def Memory.Unlisted (m : Memory) (a : Nat) : Prop := ∀ e ∈ m, e.1 ≠ a

theorem Memory.unlisted_erase (m : Memory) (a : Nat) : (m.erase a).Unlisted a := by
  intro e he
  simpa [Memory.erase] using (List.mem_filter.1 he).2

theorem Memory.read_insert (m : Memory) (a b : Nat) (v : Word) (h : m.Unlisted a) :
    (m.insert a v).read b = if b = a then v else m.read b := by
  induction m with
  | nil => by_cases hb : b = a <;> simp [Memory.insert, Memory.read, hb]
  | cons e rest ih =>
    obtain ⟨c, u⟩ := e
    have hc : c ≠ a := h (c, u) (by simp)
    have hrest : Memory.Unlisted rest a := fun e he => h e (by simp [he])
    unfold Memory.insert
    split
    · by_cases hb : b = a <;> simp [Memory.read, hb]
    · rw [Memory.read, ih hrest, Memory.read]
      by_cases hb : b = a
      · have : a ≠ c := fun h => hc h.symm
        simp [hb, this]
      · simp [hb]

/-- The cell written reads back; every other cell is as before. It holds of every list of entries,
canonical or not. -/
theorem Memory.read_write (m : Memory) (a b : Nat) (v : Word) :
    (m.write a v).read b = if b = a then v else m.read b := by
  unfold Memory.write
  split
  · next h => rw [Memory.read_erase, h]
  · rw [Memory.read_insert _ _ _ _ (Memory.unlisted_erase m a), Memory.read_erase]
    by_cases hb : b = a <;> simp [hb]

/-- Cell access through the state (R60). -/
theorem State.cell_setCell (s : State) (a b : Nat) (v : Word) :
    (s.setCell a v).cell b = if b = a then v else s.cell b :=
  Memory.read_write s.mem a b v

theorem Memory.mem_insert (m : Memory) (a : Nat) (v : Word) (e : Nat × Word) :
    e ∈ m.insert a v ↔ e = (a, v) ∨ e ∈ m := by
  induction m with
  | nil => simp [Memory.insert]
  | cons c rest ih =>
    obtain ⟨c, u⟩ := c
    unfold Memory.insert
    split
    · simp
    · simp only [List.mem_cons, ih]; tauto

/-- An entry after a write was there before, or is the one written. -/
theorem Memory.mem_write (m : Memory) (a : Nat) (v : Word) (e : Nat × Word)
    (h : e ∈ m.write a v) : e = (a, v) ∨ e ∈ m := by
  unfold Memory.write at h
  split at h
  · exact .inr (List.mem_filter.1 h).1
  · rcases (Memory.mem_insert _ _ _ _).1 h with h | h
    · exact .inl h
    · exact .inr (List.mem_filter.1 h).1

theorem Memory.wf_iff (m : Memory) :
    m.wf = true ↔ m.Pairwise (fun e f => e.1 < f.1) ∧ ∀ e ∈ m, e.2 ≠ 0 := by
  simp [Memory.wf]

theorem Memory.sorted_insert (m : Memory) (a : Nat) (v : Word)
    (h : m.Pairwise (fun e f => e.1 < f.1)) (ha : m.Unlisted a) :
    (m.insert a v).Pairwise (fun e f => e.1 < f.1) := by
  induction m with
  | nil => simp [Memory.insert]
  | cons c rest ih =>
    obtain ⟨c, u⟩ := c
    rw [List.pairwise_cons] at h
    have hc : c ≠ a := ha (c, u) (by simp)
    unfold Memory.insert
    split
    · next hlt =>
      refine List.pairwise_cons.2 ⟨fun e he => ?_, List.pairwise_cons.2 h⟩
      rcases List.mem_cons.1 he with he | he
      · subst he; exact hlt
      · exact Nat.lt_trans hlt (h.1 e he)
    · next hlt =>
      refine List.pairwise_cons.2 ⟨fun e he => ?_, ih h.2 fun e he => ha e (by simp [he])⟩
      rcases (Memory.mem_insert _ _ _ _).1 he with he | he
      · subst he; show c < a; omega
      · exact h.1 e he

/-- A write keeps the canonical form. -/
theorem Memory.wf_write (m : Memory) (a : Nat) (v : Word) (h : m.wf = true) :
    (m.write a v).wf = true := by
  rw [Memory.wf_iff] at h ⊢
  have hsorted : (m.erase a).Pairwise (fun e f => e.1 < f.1) := h.1.filter _
  refine ⟨?_, fun e he => ?_⟩
  · unfold Memory.write
    split
    · exact hsorted
    · exact Memory.sorted_insert _ _ _ hsorted (Memory.unlisted_erase m a)
  · by_cases hv : v = 0
    · simp only [Memory.write, hv, if_true] at he
      exact h.2 e (List.mem_filter.1 he).1
    · rcases Memory.mem_write m a v e he with he | he
      · subst he; exact hv
      · exact h.2 e he

/-- Equal readings of canonical memories are equal data: two canonical memories that read alike
everywhere are one list. -/
theorem Memory.read_of_mem (m : Memory) (h : m.Pairwise (fun e f => e.1 < f.1)) (e : Nat × Word)
    (he : e ∈ m) : m.read e.1 = e.2 := by
  induction m with
  | nil => simp at he
  | cons c rest ih =>
    obtain ⟨c, u⟩ := c
    rw [List.pairwise_cons] at h
    rcases List.mem_cons.1 he with he | he
    · subst he; simp [Memory.read]
    · have : c < e.1 := h.1 e he
      have hne : e.1 ≠ c := by omega
      simp [Memory.read, hne, ih h.2 he]

/-- The memory right after `create` has the canonical form. -/
theorem State.create_mem_wf (c : Config) : Memory.wf (State.create c).mem = true := by
  simp [Memory.wf]

/-- So has the reset memory. -/
theorem State.reset_mem_wf : Memory.wf State.reset.mem = true :=
  State.create_mem_wf _

end Sys2Proof.Machine
end

