-- ==== Sys2Proof/Laws/Ops.lean ====
section
/-! SUPPORT. One lemma per shared operation that says everything it can do. -/

namespace Sys2Proof.Machine

/-! ## The guard -/

theorem whenRunning_running {s t : State} (h : s.status = .running) :
    whenRunning s t = .next t := by
  simp [whenRunning, h]

theorem whenRunning_stopped {s t : State} (h : s.status ≠ .running) :
    whenRunning s t = .next s := by
  simp [whenRunning, h]

/-! ## Bounds and access primitives -/

theorem State.inBounds_iff (s : State) (a : Word) :
    s.inBounds a = true ↔ a.toNat < s.config.memCapacity := by
  simp [State.inBounds]

theorem State.fetch_cases (s : State) :
    (s.pc.toNat < s.config.memCapacity ∧ s.fetch = some (s.cell s.pc.toNat)) ∨
    (s.config.memCapacity ≤ s.pc.toNat ∧ s.fetch = none) := by
  unfold State.fetch
  by_cases h : s.pc.toNat < s.config.memCapacity
  · exact .inl ⟨h, by simp [State.inBounds, h]⟩
  · exact .inr ⟨by omega, by simp [State.inBounds, h]⟩

theorem State.memRead_cases (s : State) (a : Word) (n : Width) :
    (a.toNat < s.config.memCapacity ∧ s.memRead a n = some (n.mask (s.cell a.toNat))) ∨
    (s.config.memCapacity ≤ a.toNat ∧ s.memRead a n = none) := by
  unfold State.memRead
  by_cases h : a.toNat < s.config.memCapacity
  · exact .inl ⟨h, by simp [State.inBounds, h]⟩
  · exact .inr ⟨by omega, by simp [State.inBounds, h]⟩

theorem State.memWrite_cases (s : State) (a : Word) (n : Width) (v : Word) :
    (a.toNat < s.config.memCapacity ∧
      s.memWrite a n v = some (s.setCell a.toNat (n.mask v))) ∨
    (s.config.memCapacity ≤ a.toNat ∧ s.memWrite a n v = none) := by
  unfold State.memWrite
  by_cases h : a.toNat < s.config.memCapacity
  · exact .inl ⟨h, by simp [State.inBounds, h]⟩
  · exact .inr ⟨by omega, by simp [State.inBounds, h]⟩

/-- The byte mask as a bitwise and. -/
theorem Width.mask_byte (v : Word) : Width.mask .byte v = v &&& 0xFF := by
  show (v.extractLsb' 0 8).setWidth 32 = v &&& 0xFF
  apply BitVec.eq_of_toNat_eq
  have h : (0xFF : Nat) = 2 ^ 8 - 1 := rfl
  simp only [BitVec.toNat_setWidth, BitVec.extractLsb'_toNat, BitVec.toNat_and]
  show _ = v.toNat &&& (0xFF : Nat)
  rw [h, Nat.and_two_pow_sub_one_eq_mod]
  simp only [Nat.shiftRight_zero]
  omega

/-- The halfword mask as a bitwise and. -/
theorem Width.mask_half (v : Word) : Width.mask .half v = v &&& 0xFFFF := by
  show (v.extractLsb' 0 16).setWidth 32 = v &&& 0xFFFF
  apply BitVec.eq_of_toNat_eq
  have h : (0xFFFF : Nat) = 2 ^ 16 - 1 := rfl
  simp only [BitVec.toNat_setWidth, BitVec.extractLsb'_toNat, BitVec.toNat_and]
  show _ = v.toNat &&& (0xFFFF : Nat)
  rw [h, Nat.and_two_pow_sub_one_eq_mod]
  simp only [Nat.shiftRight_zero]
  omega

/-! ## Control transfer -/

theorem isAligned_iff (target : Word) : isAligned target = true ↔ target.toNat % 4 = 0 := by
  unfold isAligned
  rw [beq_iff_eq, ← BitVec.toNat_inj, BitVec.extractLsb'_toNat]
  simp

theorem transfer_cases (word target : Word) (linked s : State) :
    (target.toNat % 4 = 0 ∧ transfer word target linked s = linked.setPc target) ∨
    (target.toNat % 4 ≠ 0 ∧
      transfer word target linked s = s.raise .misalignedTarget word target) := by
  unfold transfer
  by_cases h : target.toNat % 4 = 0
  · exact .inl ⟨h, by simp [(isAligned_iff target).2 h]⟩
  · exact .inr ⟨h, by simp [mt (isAligned_iff target).1 h]⟩

theorem regsEqual_iff (s : State) (rs1 rs2 : RegIdx) :
    regsEqual s rs1 rs2 = true ↔ s.readReg rs1 = s.readReg rs2 := by
  simp [regsEqual]

theorem regsDiffer_iff (s : State) (rs1 rs2 : RegIdx) :
    regsDiffer s rs1 rs2 = true ↔ s.readReg rs1 ≠ s.readReg rs2 := by
  simp [regsDiffer]

/-! ## The shared meanings, in a Running state -/

theorem execAlu_running {s : State} (h : s.status = .running) (rd : RegIdx) (v : Word) :
    execAlu rd v s = .next (s.writeReg rd v).advance :=
  whenRunning_running h

theorem execLoad_cases {s : State} (h : s.status = .running) (n : Width) (word : Word)
    (rd rs1 : RegIdx) (imm : Word) :
    ((effectiveAddress s rs1 imm).toNat < s.config.memCapacity ∧
      execLoad n word rd rs1 imm s =
        .next (s.writeReg rd (n.mask (s.cell (effectiveAddress s rs1 imm).toNat))).advance) ∨
    (s.config.memCapacity ≤ (effectiveAddress s rs1 imm).toNat ∧
      execLoad n word rd rs1 imm s =
        .next (s.raise .loadOutOfBounds word (effectiveAddress s rs1 imm))) := by
  unfold execLoad
  rw [whenRunning_running h]
  rcases s.memRead_cases (effectiveAddress s rs1 imm) n with ⟨hb, e⟩ | ⟨hb, e⟩
  · exact .inl ⟨hb, by rw [e]⟩
  · exact .inr ⟨hb, by rw [e]⟩

theorem execStore_cases {s : State} (h : s.status = .running) (n : Width) (word : Word)
    (rs1 rs2 : RegIdx) (imm : Word) :
    ((effectiveAddress s rs1 imm).toNat < s.config.memCapacity ∧
      execStore n word rs1 rs2 imm s =
        .next (s.setCell (effectiveAddress s rs1 imm).toNat (n.mask (s.readReg rs2))).advance) ∨
    (s.config.memCapacity ≤ (effectiveAddress s rs1 imm).toNat ∧
      execStore n word rs1 rs2 imm s =
        .next (s.raise .storeOutOfBounds word (effectiveAddress s rs1 imm))) := by
  unfold execStore
  rw [whenRunning_running h]
  rcases s.memWrite_cases (effectiveAddress s rs1 imm) n (s.readReg rs2) with ⟨hb, e⟩ | ⟨hb, e⟩
  · exact .inl ⟨hb, by rw [e]⟩
  · exact .inr ⟨hb, by rw [e]⟩

end Sys2Proof.Machine
end

