-- ==== Sys2Proof/Laws/PerInstr.lean ====
section
/-! SUPPORT. Statements made per instruction (LAWS.json). The family EncodingMatch: an instruction's
word carries the match bits of its row of the opcode table (30_encoding.md R113), whatever its
operands. -/

namespace Sys2Proof.Laws.EncodingMatch

/-- The masked bits of the encoded word are the row's match bits. -/
def Statement (i : Instr) : Prop := encode i &&& i.encodingMask = i.encodingMatch

theorem add (rd rs1 rs2 : RegIdx) : Statement (.add rd rs1 rs2) := by
  apply BitVec.eq_of_getLsbD_eq
  intro i hi
  simp only [encode, Instr.encodingMask, Instr.encodingMatch, BitVec.getLsbD_and, encR_bit]
  interval_cases i <;> simp <;> decide

theorem sub (rd rs1 rs2 : RegIdx) : Statement (.sub rd rs1 rs2) := by
  apply BitVec.eq_of_getLsbD_eq
  intro i hi
  simp only [encode, Instr.encodingMask, Instr.encodingMatch, BitVec.getLsbD_and, encR_bit]
  interval_cases i <;> simp <;> decide

theorem addi (rd rs1 : RegIdx) (imm : Word) : Statement (.addi rd rs1 imm) := by
  apply BitVec.eq_of_getLsbD_eq
  intro i hi
  simp only [encode, Instr.encodingMask, Instr.encodingMatch, BitVec.getLsbD_and, encI_bit]
  interval_cases i <;> simp <;> decide

theorem lui (rd : RegIdx) (imm : Word) : Statement (.lui rd imm) := by
  apply BitVec.eq_of_getLsbD_eq
  intro i hi
  simp only [encode, Instr.encodingMask, Instr.encodingMatch, BitVec.getLsbD_and, encU_bit]
  interval_cases i <;> simp <;> decide

theorem auipc (rd : RegIdx) (imm : Word) : Statement (.auipc rd imm) := by
  apply BitVec.eq_of_getLsbD_eq
  intro i hi
  simp only [encode, Instr.encodingMask, Instr.encodingMatch, BitVec.getLsbD_and, encU_bit]
  interval_cases i <;> simp <;> decide

theorem jal (rd : RegIdx) (imm : Word) : Statement (.jal rd imm) := by
  apply BitVec.eq_of_getLsbD_eq
  intro i hi
  simp only [encode, Instr.encodingMask, Instr.encodingMatch, BitVec.getLsbD_and, encJ_bit]
  interval_cases i <;> simp <;> decide

theorem jalr (rd rs1 : RegIdx) (imm : Word) : Statement (.jalr rd rs1 imm) := by
  apply BitVec.eq_of_getLsbD_eq
  intro i hi
  simp only [encode, Instr.encodingMask, Instr.encodingMatch, BitVec.getLsbD_and, encI_bit]
  interval_cases i <;> simp <;> decide

theorem beq (rs1 rs2 : RegIdx) (imm : Word) : Statement (.beq rs1 rs2 imm) := by
  apply BitVec.eq_of_getLsbD_eq
  intro i hi
  simp only [encode, Instr.encodingMask, Instr.encodingMatch, BitVec.getLsbD_and, encB_bit]
  interval_cases i <;> simp <;> decide

theorem bne (rs1 rs2 : RegIdx) (imm : Word) : Statement (.bne rs1 rs2 imm) := by
  apply BitVec.eq_of_getLsbD_eq
  intro i hi
  simp only [encode, Instr.encodingMask, Instr.encodingMatch, BitVec.getLsbD_and, encB_bit]
  interval_cases i <;> simp <;> decide

theorem lb (rd rs1 : RegIdx) (imm : Word) : Statement (.lb rd rs1 imm) := by
  apply BitVec.eq_of_getLsbD_eq
  intro i hi
  simp only [encode, Instr.encodingMask, Instr.encodingMatch, BitVec.getLsbD_and, encI_bit]
  interval_cases i <;> simp <;> decide

theorem lh (rd rs1 : RegIdx) (imm : Word) : Statement (.lh rd rs1 imm) := by
  apply BitVec.eq_of_getLsbD_eq
  intro i hi
  simp only [encode, Instr.encodingMask, Instr.encodingMatch, BitVec.getLsbD_and, encI_bit]
  interval_cases i <;> simp <;> decide

theorem lw (rd rs1 : RegIdx) (imm : Word) : Statement (.lw rd rs1 imm) := by
  apply BitVec.eq_of_getLsbD_eq
  intro i hi
  simp only [encode, Instr.encodingMask, Instr.encodingMatch, BitVec.getLsbD_and, encI_bit]
  interval_cases i <;> simp <;> decide

theorem sb (rs1 rs2 : RegIdx) (imm : Word) : Statement (.sb rs1 rs2 imm) := by
  apply BitVec.eq_of_getLsbD_eq
  intro i hi
  simp only [encode, Instr.encodingMask, Instr.encodingMatch, BitVec.getLsbD_and, encS_bit]
  interval_cases i <;> simp <;> decide

theorem sh (rs1 rs2 : RegIdx) (imm : Word) : Statement (.sh rs1 rs2 imm) := by
  apply BitVec.eq_of_getLsbD_eq
  intro i hi
  simp only [encode, Instr.encodingMask, Instr.encodingMatch, BitVec.getLsbD_and, encS_bit]
  interval_cases i <;> simp <;> decide

theorem sw (rs1 rs2 : RegIdx) (imm : Word) : Statement (.sw rs1 rs2 imm) := by
  apply BitVec.eq_of_getLsbD_eq
  intro i hi
  simp only [encode, Instr.encodingMask, Instr.encodingMatch, BitVec.getLsbD_and, encS_bit]
  interval_cases i <;> simp <;> decide

theorem ebreak (rd : RegIdx) (func3 : BitVec 3) (rs1 : RegIdx) (imm : Word) :
    Statement (.ebreak rd func3 rs1 imm) := by
  apply BitVec.eq_of_getLsbD_eq
  intro i hi
  simp only [encode, Instr.encodingMask, Instr.encodingMatch, BitVec.getLsbD_and, encI_bit]
  interval_cases i <;> simp <;> decide

end Sys2Proof.Laws.EncodingMatch
end

