-- ==== Sys2Proof/Laws/Step.lean ====
section
/-! SUPPORT. What one step can do, said once. -/

namespace Sys2Proof.Machine

/-- The four ways a step goes: nothing in a state that is not Running, a fetch fault, the fault of a
word that is no instruction, or the execution of the decoded one. -/
theorem step_cases (s : State) :
    (s.status ≠ .running ∧ step s = .next s) ∨
    (s.status = .running ∧ s.config.memCapacity ≤ s.pc.toNat ∧
      step s = .next (s.raise .fetchOutOfBounds 0 s.pc)) ∨
    (∃ r, s.status = .running ∧ s.pc.toNat < s.config.memCapacity ∧
      decode (s.cell s.pc.toNat) = .error r ∧
      step s = .next (s.raise (rejectKind r) (s.cell s.pc.toNat) 0)) ∨
    (∃ i, s.status = .running ∧ s.pc.toNat < s.config.memCapacity ∧
      decode (s.cell s.pc.toNat) = .ok i ∧ step s = exec i s) := by
  by_cases hr : s.status = .running
  · rcases s.fetch_cases with ⟨hb, hf⟩ | ⟨hb, hf⟩
    · cases hd : decode (s.cell s.pc.toNat) with
      | error r => exact .inr (.inr (.inl ⟨r, hr, hb, rfl, by simp [step, fetchDecode, hr, hf, hd]⟩))
      | ok i => exact .inr (.inr (.inr ⟨i, hr, hb, rfl, by simp [step, fetchDecode, hr, hf, hd]⟩))
    · exact .inr (.inl ⟨hr, hb, by simp [step, fetchDecode, hr, hf]⟩)
  · exact .inl ⟨hr, by simp [step, fetchDecode, hr]⟩

/-- A word that is no instruction is a Skip fault (R203). -/
theorem rejectKind_policy (r : Reject) : (rejectKind r).policy = .skip := by
  cases r <;> rfl

end Sys2Proof.Machine
end

