-- ==== Sys2Proof/Tests/Slice0.lean ====
section
/-! SUPPORT. The model's own tests: decoding of words written out from the spec's encodings, single
steps with the spec's expected results (95_test_vectors.md), the smoke test of WellFormed, and for
every claim with premises a state that meets them. -/

namespace Sys2Proof.Tests

open Sys2Proof.Machine

/-! ## Building small states -/

/-- A created state of the given capacity with `pc`, some registers and some cells set. -/
def cpu (capacity : Nat) (pc : Word) (regs : List (RegIdx × Word)) (cells : List (Nat × Word)) :
    State :=
  cells.foldl (fun s c => s.setCell c.1 c.2)
    (regs.foldl (fun s r => s.writeReg r.1 r.2) ((State.create ⟨capacity, false⟩).setPc pc))

/-- The same with x0 hard-wired (10_state.md R31). -/
def strictCpu (capacity : Nat) (pc : Word) (regs : List (RegIdx × Word))
    (cells : List (Nat × Word)) : State :=
  { cpu capacity pc regs cells with config := ⟨capacity, true⟩ }

/-- A field of the state after one step. -/
def after {α : Type} (s : State) (f : State → α) : Option α :=
  match step s with
  | .next t => some (f t)
  | .fault _ => none
  | .refused _ => none

/-! ## Decoding: each word written out field by field (30_encoding.md R93 to R98, R113) -/

-- V-E7: 0000000 rs2 rs1 000 rd 0110011
theorem test_decode_add :
    decode 0b0000000_00010_00001_000_00011_0110011 = .ok (.add 3 1 2) := by decide
-- V-A3: 0100000 rs2 rs1 000 rd 0110011
theorem test_decode_sub :
    decode 0b0100000_00010_00001_000_00011_0110011 = .ok (.sub 3 1 2) := by decide
-- W3: imm[11:0] rs1 000 rd 0010011, imm = -3
theorem test_decode_addi :
    decode 0b111111111101_00001_000_00010_0010011 = .ok (.addi 2 1 (-3)) := by decide
-- V-A15: imm[31:12] rd 0110111
theorem test_decode_lui :
    decode 0b00010010001101000101_00101_0110111 = .ok (.lui 5 0x12345000) := by decide
-- V-A17: imm[31:12] rd 0010111
theorem test_decode_auipc :
    decode 0b00000000000000000001_00110_0010111 = .ok (.auipc 6 0x1000) := by decide
-- R98: imm[20] imm[10:1] imm[11] imm[19:12] rd 1101111, imm = 2048 + 4096 + 2
theorem test_decode_jal :
    decode 0b0_0000000001_1_00000001_00001_1101111 = .ok (.jal 1 6146) := by decide
-- V-C15: imm[11:0] rs1 000 rd 1100111
theorem test_decode_jalr :
    decode 0b000000001000_00101_000_00001_1100111 = .ok (.jalr 1 5 8) := by decide
-- R96: imm[12] imm[10:5] rs2 rs1 000 imm[4:1] imm[11] 1100011, imm = 2048 + 32 + 2
theorem test_decode_beq :
    decode 0b0_000001_00010_00001_000_0001_1_1100011 = .ok (.beq 1 2 2082) := by decide
-- V-C7: the same with func3 001, imm = -8
theorem test_decode_bne :
    decode 0b1_111111_00000_00001_001_1100_1_1100011 = .ok (.bne 1 0 (-8)) := by decide
-- V-M1
theorem test_decode_lb :
    decode 0b000000000000_00001_000_00010_0000011 = .ok (.lb 2 1 0) := by decide
-- V-M2
theorem test_decode_lh :
    decode 0b000000000000_00001_001_00010_0000011 = .ok (.lh 2 1 0) := by decide
-- V-M6
theorem test_decode_lw :
    decode 0b111111111100_00000_010_00010_0000011 = .ok (.lw 2 0 (-4)) := by decide
-- R95: imm[11:5] rs2 rs1 000 imm[4:0] 0100011, imm = 32 + 3
theorem test_decode_sb :
    decode 0b0000001_00010_00001_000_00011_0100011 = .ok (.sb 1 2 35) := by decide
-- V-M12
theorem test_decode_sh :
    decode 0b0000000_00010_00001_001_00000_0100011 = .ok (.sh 1 2 0) := by decide
-- V-E2
theorem test_decode_sw :
    decode 0b1111111_00010_00001_010_11111_0100011 = .ok (.sw 1 2 (-1)) := by decide
-- V-E8: csrrs x5,cycle,x0 is a debug-break word whose fields are populated
theorem test_decode_ebreak :
    decode 0b110000000000_00000_010_00101_1110011 = .ok (.ebreak 5 2 0 (-1024)) := by decide

-- W8: 0x00000000, 0xFFFFFFFF and FENCE have unrecognized selectors
theorem test_decode_unrecognized :
    decode 0x00000000 = .error .unrecognizedSelector ∧
    decode 0xFFFFFFFF = .error .unrecognizedSelector ∧
    decode 0x0000000F = .error .unrecognizedSelector := by decide
-- V-A8, V-A9, V-C11, V-C20, V-M9, V-M17: known classes with unlisted functions
theorem test_decode_unlisted_function :
    decode 0x002091B3 = .error .unrecognizedFunction ∧
    decode 0x022081B3 = .error .unrecognizedFunction ∧
    decode 0x0020C463 = .error .unrecognizedFunction ∧
    decode 0x008290E7 = .error .unrecognizedFunction ∧
    decode 0x0000C103 = .error .unrecognizedFunction ∧
    decode 0x0020B023 = .error .unrecognizedFunction := by decide
-- V-E1, V-E3, V-E4, V-E5, V-E6: the extremes of the immediates
theorem test_immediate_extremes :
    immI 0x7FF00093 = 2047 ∧ immI 0x80000093 = -2048 ∧
    immS 0x7E20AFA3 = 2047 ∧ immS 0x8020A023 = -2048 ∧
    immB 0x7E000FE3 = 4094 ∧ immB 0x80000063 = -4096 ∧
    immJ 0x7FFFF06F = 1048574 ∧ immJ 0x8000006F = -1048576 ∧
    immU 0xFFFFF0B7 = 0xFFFFF000 := by decide
-- R104: ten of the 128 selectors name a class
theorem test_ten_classes :
    ((List.range 128).filter fun n => classOf (BitVec.ofNat 7 n) ≠ .unrecognized).length = 10 := by
  decide
-- R67, 20_memory.md: byte 0 is bits 7:0
theorem test_words_of_bytes :
    wordsOfBytes [0xB3, 0x81, 0x20, 0x00] = some [0x002081B3] := by decide
theorem test_table_word : decodeTableWord 32 0x00000073 = some (.ebreak 0 0 0 0) := by decide

-- R115: a store names the stored register first
theorem test_instr_text : instrText (.sw 1 2 (-1)) = "sw x2, -1(x1)" := by decide
-- R116: lo12 is negative, so hi20 is one more than bits 31:12
theorem test_pseudo_li :
    (Pseudo.li 5 0x12345FFF).expand 0 = [.lui 5 0x12346000, .addi 5 5 (-1)] ∧
    (Pseudo.li 5 2047).expand 0 = [.addi 5 0 2047] := by decide

/-! ## WellFormed: each check refuses an ill-formed term -/

theorem test_ill_formed_imm12 :
    (Instr.addi 1 0 2048).wellFormed = false ∧ (Instr.jalr 1 0 (-2049)).wellFormed = false ∧
    (Instr.lb 1 0 2048).wellFormed = false ∧ (Instr.lh 1 0 2048).wellFormed = false ∧
    (Instr.lw 1 0 2048).wellFormed = false ∧ (Instr.sb 1 0 (-2049)).wellFormed = false ∧
    (Instr.sh 1 0 (-2049)).wellFormed = false ∧ (Instr.sw 1 0 (-2049)).wellFormed = false ∧
    (Instr.ebreak 0 0 0 2048).wellFormed = false := by decide
theorem test_ill_formed_immB :
    (Instr.beq 1 0 3).wellFormed = false ∧ (Instr.beq 1 0 4096).wellFormed = false ∧
    (Instr.bne 1 0 (-4098)).wellFormed = false := by decide
theorem test_ill_formed_immU :
    (Instr.lui 1 1).wellFormed = false ∧ (Instr.auipc 1 2048).wellFormed = false := by decide
theorem test_ill_formed_immJ :
    (Instr.jal 1 5).wellFormed = false ∧ (Instr.jal 1 1048576).wellFormed = false ∧
    (Instr.jal 1 (-1048578)).wellFormed = false := by decide

/-! ## One step each, with the results the spec's vectors give -/

-- V-A1: wraps
theorem test_add_wraps :
    after (cpu 256 0 [(1, 0x7FFFFFFF), (2, 1)] [(0, 0x002081B3)]) (fun t => (t.readReg 3, t.pc))
      = some (0x80000000, 4) := by decide
-- V-A6, V-A7: x0 is an ordinary register, and in the strict variant it stays 0
theorem test_add_x0 :
    after (cpu 256 0 [(1, 3), (2, 4)] [(0, 0x00208033)]) (fun t => t.readReg 0) = some 7 ∧
    after (strictCpu 256 0 [(1, 3), (2, 4)] [(0, 0x00208033)]) (fun t => t.readReg 0)
      = some 0 := by decide
-- V-A3
theorem test_sub_wraps :
    after (cpu 256 0 [(1, 0), (2, 1)] [(0, 0x402081B3)]) (fun t => t.readReg 3)
      = some 0xFFFFFFFF := by decide
-- V-A5: rd = rs1 = rs2
theorem test_sub_same_register :
    after (cpu 256 0 [(1, 0x1234)] [(0, 0x401080B3)]) (fun t => t.readReg 1) = some 0 := by decide
-- V-A11
theorem test_addi_wraps :
    after (cpu 256 0 [(1, 0x7FFFFFFF)] [(0, 0x7FF08113)]) (fun t => t.readReg 2)
      = some 0x800007FE := by decide
-- V-A12
theorem test_addi_sign_extends :
    after (cpu 256 0 [] [(0, 0x80000113)]) (fun t => t.readReg 2) = some 0xFFFFF800 := by decide
-- V-A15
theorem test_lui :
    after (cpu 256 0 [] [(0, 0x123452B7)]) (fun t => t.readReg 5) = some 0x12345000 := by decide
-- V-A16
theorem test_lui_x0 :
    after (cpu 256 0 [] [(0, 0xFFFFF037)]) (fun t => t.readReg 0) = some 0xFFFFF000 := by decide
-- V-A17
theorem test_auipc :
    after (cpu 256 8 [] [(8, 0x00001317)]) (fun t => (t.readReg 6, t.pc))
      = some (0x1008, 0x0C) := by decide
-- V-A18
theorem test_auipc_wraps :
    after (cpu 256 0x10 [] [(0x10, 0xFFFFF097)]) (fun t => t.readReg 1)
      = some 0xFFFFF010 := by decide
-- V-C1
theorem test_jal :
    after (cpu 256 0x10 [] [(0x10, 0x008000EF)]) (fun t => (t.readReg 1, t.pc))
      = some (0x14, 0x18) := by decide
-- V-C3
theorem test_jal_misaligned :
    after (cpu 256 0 [] [(0, 0x006000EF)]) (fun t => (t.fatal, t.readReg 1, t.pc))
      = some (some ⟨.misalignedTarget, 0, 0x006000EF, 6⟩, 0, 0) := by decide
-- V-C15: x5 is not read
theorem test_jalr_from_pc :
    after (cpu 256 0 [(5, 0x100)] [(0, 0x008280E7)]) (fun t => (t.readReg 1, t.pc))
      = some (4, 8) := by decide
-- V-C19
theorem test_jalr_misaligned :
    after (cpu 256 0x10 [] [(0x10, 0xFFF000E7)]) (fun t => t.fatal)
      = some (some ⟨.misalignedTarget, 0x10, 0xFFF000E7, 0xE⟩) := by decide
-- V-C5
theorem test_beq_taken :
    after (cpu 256 8 [(1, 3), (2, 3)] [(8, 0x00208463)]) (fun t => t.pc) = some 0x10 := by decide
-- V-C10: not taken, so no check of the target
theorem test_beq_not_taken :
    after (cpu 256 0 [(1, 1)] [(0, 0x00008363)]) (fun t => (t.pc, t.faults)) = some (4, []) := by
  decide
-- V-C7
theorem test_bne_taken :
    after (cpu 256 0x10 [(1, 1)] [(0x10, 0xFE009CE3)]) (fun t => t.pc) = some 8 := by decide
-- V-C8
theorem test_bne_not_taken :
    after (cpu 256 0x10 [] [(0x10, 0xFE009CE3)]) (fun t => t.pc) = some 0x14 := by decide
-- V-M1: zero-extended
theorem test_lb :
    after (cpu 256 0 [(1, 0x40)] [(0, 0x00008103), (0x40, 0xFFFFFF80)]) (fun t => t.readReg 2)
      = some 0x80 := by decide
-- V-M2
theorem test_lh :
    after (cpu 256 0 [(1, 0x40)] [(0, 0x00009103), (0x40, 0x12345678)]) (fun t => t.readReg 2)
      = some 0x5678 := by decide
-- V-M4: each address is its own cell
theorem test_lw_own_cell :
    after (cpu 256 0 [(1, 0x40)] [(0, 0x0010A103), (0x40, 0x11111111), (0x41, 0x22222222)])
      (fun t => t.readReg 2) = some 0x22222222 := by decide
-- W6: at the capacity
theorem test_lw_at_capacity :
    after (cpu 256 0 [(1, 256)] [(0, 0x0000A103)])
      (fun t => (t.status, t.fatal, t.faults, t.readReg 2, t.pc))
      = some (.faulted, some ⟨.loadOutOfBounds, 0, 0x0000A103, 0x100⟩,
          [⟨.loadOutOfBounds, 0, 0x0000A103, 0x100⟩], 0, 0) := by decide
-- V-M11: the whole cell is replaced
theorem test_sb :
    after (cpu 256 0 [(1, 0x40), (2, 0x12345678)] [(0, 0x00208023), (0x40, 0xFFFFFFFF)])
      (fun t => t.cell 0x40) = some 0x78 := by decide
-- V-M12
theorem test_sh :
    after (cpu 256 0 [(1, 0x40), (2, 0xABCDEF01)] [(0, 0x00209023), (0x40, 0xFFFFFFFF)])
      (fun t => t.cell 0x40) = some 0xEF01 := by decide
-- V-M14: a negative displacement
theorem test_sw :
    after (cpu 256 0 [(1, 0x41), (2, 0x77)] [(0, 0xFE20AFA3)]) (fun t => (t.cell 0x40, t.pc))
      = some (0x77, 4) := by decide
-- V-M15
theorem test_sw_at_capacity :
    after (cpu 256 0 [(1, 256), (2, 1)] [(0, 0x0020A023)]) (fun t => (t.fatal, t.mem))
      = some (some ⟨.storeOutOfBounds, 0, 0x0020A023, 0x100⟩, [(0, 0x0020A023)]) := by decide
-- V-S1
theorem test_ebreak :
    after (cpu 256 0x10 [(1, 1)] [(0x10, 0x00100073)]) (fun t => (t.status, t.pc, t.readReg 1))
      = some (.halted, 0x10, 1) := by decide
-- V-S4: a CSR read halts and writes nothing
theorem test_csr_word_halts :
    after (cpu 256 0x10 [(5, 9)] [(0x10, 0xC00022F3)]) (fun t => (t.status, t.readReg 5))
      = some (.halted, 9) := by decide
-- V-S5
theorem test_decode_fault_skips :
    after (cpu 256 0 [] []) (fun t => (t.status, t.pc, t.faults))
      = some (.running, 4, [⟨.decodeFault, 0, 0, 0⟩]) := by decide
-- V-A9
theorem test_exec_fault_skips :
    after (cpu 256 0 [(1, 6), (2, 7)] [(0, 0x022081B3)]) (fun t => (t.pc, t.faults, t.readReg 3))
      = some (4, [⟨.execFault, 0, 0x022081B3, 0⟩], 0) := by decide
-- V-S8
theorem test_fetch_at_capacity :
    after (cpu 256 0x100 [] []) (fun t => (t.status, t.fatal))
      = some (.faulted, some ⟨.fetchOutOfBounds, 0x100, 0, 0x100⟩) := by decide
-- W7, V-S10: a halted state, whatever the cell at pc holds
theorem test_halted_stays :
    after (cpu 256 4 [] [(4, 0x00100093)]).halt id
      = some (cpu 256 4 [] [(4, 0x00100093)]).halt := by decide
-- P10: words sit 4 addresses apart
theorem test_load_program :
    (loadProgram (cpu 256 0 [] []) 8 [0x00300093, 0x00100073]).map (fun t => t.mem)
      = some [(8, 0x00300093), (12, 0x00100073)] := by decide
-- R243: a word at the capacity is a loader error
theorem test_load_program_past_capacity :
    loadProgram (cpu 16 0 [] []) 12 [1, 2] = none := by decide
-- V-S9's step bound: BoundReached, still Running
theorem test_run_bound :
    (match run 1 (cpu 16 12 [] [(12, 0x00000013)]) with
      | .next (t, r) => some (t.pc, r) | .fault _ => none | .refused _ => none)
      = some (16, .boundReached) := by decide
-- The host's fetch word runs as the first instruction after reset
theorem test_fetch_word_after_reset :
    after (State.reset.withFetchWord 32 0x00500093) (fun t => (t.readReg 1, t.pc))
      = some (5, 4) := by decide

/-! ## Premises that can be met: for each claim with premises, a state that meets them -/

-- Add, Sub, Addi, Lui, Auipc, Ebreak: Running is the only premise.
theorem witness_running : (cpu 256 0 [] []).status = .running := by decide
-- JalLinksAndJumps, BeqBranchesWhenEqual, BneBranchesWhenDifferent: an aligned target, at the wrap
-- of the address space, with equal and with different registers.
theorem witness_aligned_target :
    (cpu 256 4 [(1, 1)] []).status = .running ∧
    ((cpu 256 4 [(1, 1)] []).pc + (-8)).toNat % 4 = 0 ∧
    (cpu 256 4 [(1, 1)] []).readReg 0 = (cpu 256 4 [(1, 1)] []).readReg 2 ∧
    (cpu 256 4 [(1, 1)] []).readReg 0 ≠ (cpu 256 4 [(1, 1)] []).readReg 1 := by decide
-- JalrLinksAndJumpsFromPc: an odd sum whose cleared target is aligned.
theorem witness_jalr_target :
    (cpu 256 0x10 [] []).status = .running ∧
    (((cpu 256 0x10 [] []).pc + 5) &&& 0xFFFFFFFE).toNat % 4 = 0 := by decide
-- MisalignedTargetStops: all four clauses at one state.
theorem witness_misaligned_target :
    (cpu 256 0 [(1, 1)] []).status = .running ∧
    ((cpu 256 0 [(1, 1)] []).pc + 2).toNat % 4 ≠ 0 ∧
    (((cpu 256 0 [(1, 1)] []).pc + 3) &&& 0xFFFFFFFE).toNat % 4 ≠ 0 ∧
    (cpu 256 0 [(1, 1)] []).readReg 0 = (cpu 256 0 [(1, 1)] []).readReg 2 ∧
    (cpu 256 0 [(1, 1)] []).readReg 0 ≠ (cpu 256 0 [(1, 1)] []).readReg 1 := by decide
-- The load and store claims, StoreThenLoadRoundTrip: the last cell in bounds.
theorem witness_last_cell :
    (cpu 256 0 [(1, 256)] []).status = .running ∧
    (effectiveAddress (cpu 256 0 [(1, 256)] []) 1 (-1)).toNat = 255 ∧
    (effectiveAddress (cpu 256 0 [(1, 256)] []) 1 (-1)).toNat <
      (cpu 256 0 [(1, 256)] []).config.memCapacity := by decide
-- LoadOutOfBoundsStops, StoreOutOfBoundsStops: exactly the capacity.
theorem witness_at_capacity :
    (cpu 256 0 [(1, 256)] []).status = .running ∧
    (cpu 256 0 [(1, 256)] []).config.memCapacity =
      (effectiveAddress (cpu 256 0 [(1, 256)] []) 1 0).toNat := by decide
-- FinishedStateNeverChanges: a Halted and a Faulted state.
theorem witness_finished :
    (cpu 256 0 [] []).halt.status = .halted ∧
    ((cpu 256 0x100 [] []).raise .fetchOutOfBounds 0 0x100).status = .faulted := by decide
-- StepRunsDecodedInstruction: in the last cell that can hold an aligned instruction.
theorem witness_step_decodes :
    (cpu 256 252 [] [(252, 0x002081B3)]).status = .running ∧
    (cpu 256 252 [] [(252, 0x002081B3)]).pc.toNat <
      (cpu 256 252 [] [(252, 0x002081B3)]).config.memCapacity ∧
    decode ((cpu 256 252 [] [(252, 0x002081B3)]).cell 252) = .ok (.add 3 1 2) := by decide
-- FetchReadsCellOrStops: both clauses, at the two sides of the capacity.
theorem witness_fetch_bounds :
    (cpu 256 255 [] []).pc.toNat < (cpu 256 255 [] []).config.memCapacity ∧
    (cpu 256 256 [] []).status = .running ∧
    (cpu 256 256 [] []).config.memCapacity ≤ (cpu 256 256 [] []).pc.toNat := by decide
-- UnrecognizedSelectorSkips.
theorem witness_unrecognized :
    (cpu 256 0 [] []).status = .running ∧ (cpu 256 0 [] []).fetch = some 0 ∧
    opcodeField 0 ∉ ([0x33, 0x13, 0x6F, 0x67, 0x63, 0x03, 0x23, 0x73, 0x37, 0x17] :
      List (BitVec 7)) := by decide
-- The class claims share their premises; `w` is any word of the class.
theorem witness_class_word (w : Word) (h : w ≠ 0) :
    (cpu 256 0 [] [(0, w)]).status = .running ∧ (cpu 256 0 [] [(0, w)]).fetch = some w := by
  refine ⟨rfl, ?_⟩
  have hm : (cpu 256 0 [] [(0, w)]).cell 0 = w := by
    show Memory.read (Memory.write [] 0 w) 0 = w
    rw [Memory.write, if_neg h]
    rfl
  show some ((cpu 256 0 [] [(0, w)]).cell 0) = some w
  rw [hm]
-- AluRegRegClassStep: ADD, SUB, and neither by func3 and by func7.
theorem witness_alu_reg_reg :
    [0x002081B3, 0x402081B3, 0x002091B3, 0x022081B3].map (fun w : Word =>
      (opcodeField w, func3Field w, func7Field w)) =
      [(0x33, 0, 0), (0x33, 0, 0x20), (0x33, 1, 0), (0x33, 0, 1)] := by decide
-- AluRegImmClassStep and UpperImmediateClassStep.
theorem witness_alu_reg_imm :
    [0xFFD08113, 0x00104093].map (fun w : Word => (opcodeField w, func3Field w)) =
      [(0x13, 0), (0x13, 4)] ∧
    opcodeField 0x123452B7 = 0x37 ∧ opcodeField 0x00001317 = 0x17 := by decide
-- JalClassStep and JalrClassStep: aligned and misaligned targets from address 0, and func3 not 0.
theorem witness_jumps :
    [0x008000EF, 0x006000EF].map (fun w : Word => (opcodeField w, (0 + immJ w).toNat % 4)) =
      [(0x6F, 0), (0x6F, 2)] ∧
    [0x005000E7, 0x007000E7, 0x008290E7].map (fun w : Word =>
      (opcodeField w, func3Field w, ((0 + immI w) &&& 0xFFFFFFFE).toNat % 4)) =
      [(0x67, 0, 0), (0x67, 0, 2), (0x67, 1, 0)] := by decide
-- BranchClassStep: BEQ and BNE with each kind of target, and the first unlisted func3.
theorem witness_branches :
    [0x00208463, 0x00000363, 0xFE009CE3, 0x0020A463].map (fun w : Word =>
      (opcodeField w, func3Field w, immB w)) =
      [(0x63, 0, 8), (0x63, 0, 6), (0x63, 1, -8), (0x63, 2, 8)] := by decide
-- LoadClassStep and StoreClassStep: the three widths and the first unlisted func3.
theorem witness_loads_and_stores :
    [0x00008103, 0x00009103, 0x0000A103, 0x0000B103].map (fun w : Word =>
      (opcodeField w, func3Field w)) = [(0x03, 0), (0x03, 1), (0x03, 2), (0x03, 3)] ∧
    [0x00208023, 0x00209023, 0x0020A023, 0x0020B023].map (fun w : Word =>
      (opcodeField w, func3Field w)) = [(0x23, 0), (0x23, 1), (0x23, 2), (0x23, 3)] := by decide
-- The same two with the address exactly at the capacity.
theorem witness_class_at_capacity :
    (cpu 256 0 [(1, 256)] [(0, 0x0000A103)]).status = .running ∧
    (cpu 256 0 [(1, 256)] [(0, 0x0000A103)]).fetch = some 0x0000A103 ∧
    ((cpu 256 0 [(1, 256)] []).readReg (rs1Field 0x0000A103) + immI 0x0000A103).toNat = 256 ∧
    (cpu 256 0 [(1, 256)] [(0, 0x0020A023)]).fetch = some 0x0020A023 ∧
    ((cpu 256 0 [(1, 256)] []).readReg (rs1Field 0x0020A023) + immS 0x0020A023).toNat = 256 := by
  decide
-- DebugBreakClassHalts: ECALL.
theorem witness_debug_break : opcodeField 0x00000073 = 0x73 := by decide
-- DecodeEncodeRoundTrip, at the end of the J range; EncodeDecodeRoundTrip.
theorem witness_round_trips :
    (Instr.jal 31 (-1048576)).wellFormed = true ∧
    decode 0x8000006F = .ok (.jal 0 (-1048576)) := by decide
-- StoreSeenByNextFetch: a store into the cell fetched next, and a later state that fetches from the
-- last cell, which a store wrote.
theorem witness_store_to_next :
    (cpu 256 8 [(1, 12)] []).status = .running ∧
    effectiveAddress (cpu 256 8 [(1, 12)] []) 1 0 = (cpu 256 8 [(1, 12)] []).pc + 4 ∧
    (effectiveAddress (cpu 256 8 [(1, 12)] []) 1 0).toNat < 256 := by decide
theorem witness_store_fetched_later :
    ∃ t u, exec (.sb 1 2 (-1)) (cpu 256 8 [(1, 256), (2, 0x173)] []) = .next t ∧
      Claims.SameCells t u ∧ u.config = t.config ∧
      u.pc = effectiveAddress (cpu 256 8 [(1, 256), (2, 0x173)] []) 1 (-1) ∧
      u.fetch = some 0x73 :=
  ⟨_, State.setPc _ 255, rfl, fun _ => rfl, rfl, by decide, by decide⟩
-- InvariantHoldsAfterReset: the least and the greatest capacity are allowed, 0 and one more not.
theorem witness_legal_config :
    Config.legal ⟨1, false⟩ = true ∧ Config.legal ⟨2 ^ 32, true⟩ = true ∧
    Config.legal ⟨0, false⟩ = false ∧ Config.legal ⟨2 ^ 32 + 1, false⟩ = false := by decide
-- StepKeepsInvariant, PcStaysAligned, ConfigurationNeverChanges, OnlyStoresChangeMemory: a state
-- with the invariant whose step is a store that changes a cell.
theorem witness_invariant_step :
    (cpu 256 0 [(1, 255), (2, 7)] [(0, 0x0020A023)]).Inv ∧
    ∃ t, step (cpu 256 0 [(1, 255), (2, 7)] [(0, 0x0020A023)]) = .next t ∧
      t.cell 255 ≠ (cpu 256 0 [(1, 255), (2, 7)] [(0, 0x0020A023)]).cell 255 := by
  refine ⟨⟨by decide, by decide, by decide, fun r h => ?_, fun r h => ?_, by decide, by decide,
    fun h => ?_⟩, _, rfl, by decide⟩
  · exact absurd h (by simp [cpu, State.create, State.setCell, State.setPc, State.writeReg])
  · exact absurd h (by simp [cpu, State.create, State.setCell, State.setPc, State.writeReg])
  · exact absurd h (by decide)
-- StepRaisesAtMostOneFault: a step that raises one.
theorem witness_step_raises :
    ∃ t, step (cpu 256 0 [] []) = .next t ∧ t.faults ≠ (cpu 256 0 [] []).faults :=
  ⟨_, rfl, by decide⟩
-- EveryStepAnswersNext, the first clause: each kind of check failed, the accesses exactly at the
-- capacity.
theorem witness_fails :
    (cpu 256 0 [(1, 256)] []).status = .running ∧
    Claims.Fails (cpu 256 0 [(1, 256)] []) .misalignedTarget 2 (.jal 0 2) ∧
    Claims.Fails (cpu 256 0 [(1, 256)] []) .misalignedTarget 2 (.jalr 0 0 3) ∧
    Claims.Fails (cpu 256 0 [(1, 256)] []) .misalignedTarget 6 (.beq 0 2 6) ∧
    Claims.Fails (cpu 256 0 [(1, 256)] []) .misalignedTarget 6 (.bne 0 1 6) ∧
    Claims.Fails (cpu 256 0 [(1, 256)] []) .loadOutOfBounds 256 (.lb 0 1 0) ∧
    Claims.Fails (cpu 256 0 [(1, 256)] []) .storeOutOfBounds 256 (.sw 1 0 0) := by
  unfold Claims.Fails
  decide
-- EveryStepAnswersNext, the second clause: a fetch exactly at the capacity, a word of each rejected
-- kind, and an instruction that fails its check.
theorem witness_meets :
    Claims.Meets (cpu 256 256 [] []) ⟨.fetchOutOfBounds, 256, 0, 256⟩ ∧
    Claims.Meets (cpu 256 252 [] []) ⟨.decodeFault, 252, 0, 0⟩ ∧
    Claims.Meets (cpu 256 0 [] [(0, 0x022081B3)]) ⟨.execFault, 0, 0x022081B3, 0⟩ ∧
    Claims.Meets (cpu 256 0 [(1, 256)] [(0, 0x0000A103)])
      ⟨.loadOutOfBounds, 0, 0x0000A103, 256⟩ :=
  ⟨⟨rfl, .inl (by decide)⟩, ⟨rfl, .inr ⟨by decide, rfl, .inl (by decide)⟩⟩,
    ⟨rfl, .inr ⟨by decide, rfl, .inr (.inl (by decide))⟩⟩,
    ⟨rfl, .inr ⟨by decide, rfl, .inr (.inr ⟨.lw 2 1 0, by decide, rfl, by decide, by decide⟩)⟩⟩⟩
-- OnlyDebugBreakSetsHalted: a step that sets it, and a state in which it is set.
theorem witness_step_halts :
    (cpu 256 0 [] [(0, 0x00100073)]).halted = false ∧
    (∃ t, step (cpu 256 0 [] [(0, 0x00100073)]) = .next t ∧ t.halted = true) ∧
    (cpu 256 0 [] []).halt.halted = true :=
  ⟨rfl, ⟨_, rfl, rfl⟩, rfl⟩
-- OnlyNamedDestinationChanges: a step that writes the highest register.
theorem witness_step_writes_register :
    ∃ t, step (cpu 256 0 [] [(0, 0xFFFFFFB7)]) = .next t ∧
      t.rawReg 31 ≠ (cpu 256 0 [] [(0, 0xFFFFFFB7)]).rawReg 31 :=
  ⟨_, rfl, by decide⟩
-- RunCarriesOnAfterBound and RunReportsTheStatus: a run cut short, whose step raised a fault, and a
-- finished state.
theorem witness_run_step :
    (cpu 16 12 [] []).status = .running ∧
    ∃ t, step (cpu 16 12 [] []) = .next t ∧ run 1 (cpu 16 12 [] []) = .next (t, .boundReached) :=
  ⟨by decide, _, rfl, rfl⟩
theorem witness_run :
    (∃ t r, run 1 (cpu 16 12 [] [(12, 0x00000013)]) = .next (t, r) ∧ r = .boundReached) ∧
    (cpu 16 12 [] []).halt.status ≠ .running :=
  ⟨⟨_, _, rfl, by decide⟩, by decide⟩
-- RunKeepsFaultLog: a run of two steps that each log a fault, and one that ends cleanly.
theorem witness_run_logs :
    (∃ u t q r, run 1 (cpu 16 0 [] []) = .next (u, q) ∧ run (1 + 1) (cpu 16 0 [] []) = .next (t, r) ∧
      u.faults ≠ [] ∧ t.faults ≠ u.faults) ∧
    ∃ t r, run (0 + 1) (cpu 16 0 [] [(0, 0x00100073)]) = .next (t, r) ∧ t.EndedCleanly :=
  ⟨⟨_, _, _, _, rfl, rfl, by decide, by decide⟩, _, _, rfl, by decide, rfl⟩
-- RunEndIsUnique: a run that ends.
theorem witness_run_ends :
    ∃ t r, RunEnds (cpu 16 0 [] [(0, 0x00100073)]) t r :=
  ⟨_, _, 1, rfl, by decide⟩
-- SelfBranchNeverEnds: V-C13.
theorem witness_self_branch :
    (cpu 256 0x20 [] [(0x20, 0x00000063)]).status = .running ∧
    (cpu 256 0x20 [] [(0x20, 0x00000063)]).cell 0x20 = 0x00000063 ∧
    (cpu 256 0x20 [] []).pc.toNat < 256 ∧ (cpu 256 0x20 [] []).pc.toNat % 4 = 0 := by decide
-- LoadProgramPlacesWords: the last word in the last cell, and one cell further.
theorem witness_load_program :
    (loadProgram (cpu 16 0 [] []) 11 [1, 2]).isSome = true ∧
    loadProgram (cpu 16 0 [] []) 12 [1, 2] = none := by decide
-- LiAndLaLoadTheirOperand: the first value li does not load in one instruction.
theorem witness_wide_li :
    (cpu 256 0 [] []).status = .running ∧ fitsImm12 2048 = false ∧ fitsImm12 2047 = true := by
  decide

end Sys2Proof.Tests
end

section
/-! The immediates of 30_encoding.md R99 to R103 as arithmetic on the fields of the word: two's
complement distributes over concatenation, so only the topmost field of a format carries a sign. -/

namespace Sys2Proof

open Sys2Proof.Claims

/-! ## A field read as a number -/

theorem field_lt (w : Word) (lo n : Nat) : field w lo n < 2 ^ n :=
  Nat.mod_lt _ (Nat.two_pow_pos n)

theorem toNat_extractLsb'_eq_field (w : Word) (lo n : Nat) :
    (w.extractLsb' lo n).toNat = field w lo n := by
  rw [BitVec.extractLsb'_toNat, Nat.shiftRight_eq_div_pow, field]

theorem toInt_extractLsb'_eq_field (w : Word) (lo n : Nat) :
    (w.extractLsb' lo n).toInt =
      if 2 * field w lo n < 2 ^ n then (field w lo n : Int) else field w lo n - (2 ^ n : Nat) := by
  rw [BitVec.toInt_eq_toNat_cond, toNat_extractLsb'_eq_field]

/-- The sign bit of a format counts negatively. -/
theorem toInt_extractLsb'_one (w : Word) (lo : Nat) :
    (w.extractLsb' lo 1).toInt = -(field w lo 1 : Int) := by
  have hbit := field_lt w lo 1
  rw [toInt_extractLsb'_eq_field]
  split <;> omega

/-- Below a nonempty high part the low part is unsigned. -/
theorem toInt_append_of_pos {m n : Nat} (hn : 0 < n) (x : BitVec n) (y : BitVec m) :
    (x ++ y).toInt = 2 ^ m * x.toInt + y.toNat := by
  rw [BitVec.toInt_append, if_neg (by simpa using hn.ne')]

/-! ## The value of each format's immediate -/

theorem immI_toInt (w : Word) :
    (immI w).toInt =
      if field w 20 12 < 2048 then (field w 20 12 : Int) else field w 20 12 - 4096 := by
  rw [immI, BitVec.toInt_signExtend_of_le (by decide), toInt_extractLsb'_eq_field]
  split <;> split <;> omega

theorem immS_toInt (w : Word) :
    (immS w).toInt =
      if field w 25 7 * 32 + field w 7 5 < 2048 then (field w 25 7 * 32 + field w 7 5 : Int)
      else field w 25 7 * 32 + field w 7 5 - 4096 := by
  have hlow := field_lt w 7 5
  rw [immS, BitVec.toInt_signExtend_of_le (by decide), toInt_append_of_pos (by decide),
    toNat_extractLsb'_eq_field, toInt_extractLsb'_eq_field]
  split <;> split <;> omega

theorem immB_toInt (w : Word) :
    (immB w).toInt =
      (field w 7 1 * 2048 + field w 25 6 * 32 + field w 8 4 * 2 : Int) - field w 31 1 * 4096 := by
  rw [immB, BitVec.toInt_signExtend_of_le (by decide), toInt_append_of_pos (by decide),
    toInt_append_of_pos (by decide), toInt_append_of_pos (by decide),
    toInt_append_of_pos (by decide), toInt_extractLsb'_one]
  simp only [toNat_extractLsb'_eq_field, BitVec.toNat_zero]
  ring

theorem immU_toNat (w : Word) : (immU w).toNat = field w 12 20 * 4096 := by
  rw [immU, BitVec.toNat_append, toNat_extractLsb'_eq_field, BitVec.toNat_zero, Nat.or_zero,
    Nat.shiftLeft_eq]

theorem immJ_toInt (w : Word) :
    (immJ w).toInt =
      (field w 12 8 * 4096 + field w 20 1 * 2048 + field w 21 10 * 2 : Int)
        - field w 31 1 * 1048576 := by
  rw [immJ, BitVec.toInt_signExtend_of_le (by decide), toInt_append_of_pos (by decide),
    toInt_append_of_pos (by decide), toInt_append_of_pos (by decide),
    toInt_append_of_pos (by decide), toInt_extractLsb'_one]
  simp only [toNat_extractLsb'_eq_field, BitVec.toNat_zero]
  ring

/-! ## The range of each format's immediate -/

/-- Any sign-extended 12 bits lie in the range of R99 and R100. -/
theorem fitsImm12_signExtend (x : BitVec 12) : fitsImm12 (x.signExtend 32) = true := by
  have hlow := x.le_toInt
  have hhigh := x.toInt_lt
  simp only [fitsImm12, BitVec.toInt_signExtend_of_le (show 12 ≤ 32 by decide), Bool.and_eq_true,
    decide_eq_true_eq]
  omega

theorem fitsImmB_immB (w : Word) : fitsImmB (immB w) = true := by
  have h11 := field_lt w 7 1
  have h5 := field_lt w 25 6
  have h1 := field_lt w 8 4
  have h12 := field_lt w 31 1
  simp only [fitsImmB, immB_toInt, Bool.and_eq_true, decide_eq_true_eq]
  omega

theorem fitsImmU_immU (w : Word) : fitsImmU (immU w) = true := by
  rw [fitsImmU, immU_toNat, Nat.mul_mod_left, decide_eq_true_eq]

theorem fitsImmJ_immJ (w : Word) : fitsImmJ (immJ w) = true := by
  have h12 := field_lt w 12 8
  have h11 := field_lt w 20 1
  have h1 := field_lt w 21 10
  have h20 := field_lt w 31 1
  simp only [fitsImmJ, immJ_toInt, Bool.and_eq_true, decide_eq_true_eq]
  omega

/-- Settles O35: each format's value is that of its concatenated fields, and its range follows from
the widths of the fields. -/
theorem immediatesReconstructed : Obligations.ImmediatesReconstructed := fun w =>
  ⟨immI_toInt w, immS_toInt w, immB_toInt w, immU_toNat w, immJ_toInt w, fitsImm12_signExtend _,
    fitsImm12_signExtend _, fitsImmB_immB w, fitsImmU_immU w, fitsImmJ_immJ w⟩

end Sys2Proof
end

section
/-! What a step does with the word it fetched: an instruction runs, any other word is a Skip fault. -/

namespace Sys2Proof.Machine

open Sys2Proof.Claims

/-! ## A step on the fetched word -/

theorem step_of_decode_ok {s : State} {w : Word} {i : Instr} (hrun : s.status = .running)
    (hfetch : s.fetch = some w) (hdec : decode w = .ok i) : step s = exec i s := by
  simp [step, fetchDecode, hrun, hfetch, hdec]

theorem step_of_decode_error {s : State} {w : Word} {r : Reject} (hrun : s.status = .running)
    (hfetch : s.fetch = some w) (hdec : decode w = .error r) :
    step s = .next (s.raise (rejectKind r) w 0) := by
  simp [step, fetchDecode, hrun, hfetch, hdec]

/-! ## What a Skip fault and a register write leave behind -/

theorem raise_skips (s : State) {kind : FaultKind} (hskip : kind.policy = .skip) (w : Word) :
    Skips s (s.raise kind w 0) kind w := by
  simp [Skips, SameRegs, SameCells, State.raise_pc, State.raise_fatal, hskip]

/-- R36: the result is written and the step goes on at the next instruction. -/
theorem writeReg_advance_writesReg (s : State) (rd : RegIdx) (v : Word) :
    WritesReg s (s.writeReg rd v).advance rd v (s.pc + 4) := by
  simp [WritesReg, RegWritten, SameCells, SameRun, State.rawReg_writeReg]

/-- R109, R204: a word that is no instruction is logged and skipped. -/
theorem step_skips_of_decode_error {s : State} {w : Word} {r : Reject}
    (hrun : s.status = .running) (hfetch : s.fetch = some w) (hdec : decode w = .error r) :
    ∃ t, step s = .next t ∧ Skips s t (rejectKind r) w :=
  ⟨_, step_of_decode_error hrun hfetch hdec, raise_skips s (rejectKind_policy r) w⟩

end Sys2Proof.Machine
end

section
/-! The ALU classes of 40_alu.md, from the fetched word to the state after the step. -/

namespace Sys2Proof

/-! ## What the words of each class decode to -/

theorem decode_aluRegReg {w : Word} (hop : opcodeField w = selAluRegReg) :
    decode w =
      if func3Field w = 0 ∧ func7Field w = 0 then
        .ok (.add (rdField w) (rs1Field w) (rs2Field w))
      else if func3Field w = 0 ∧ func7Field w = 0b0100000 then
        .ok (.sub (rdField w) (rs1Field w) (rs2Field w))
      else .error .unrecognizedFunction := by
  rw [decode, decodeFields, hop]
  rfl

theorem decode_aluRegImm {w : Word} (hop : opcodeField w = selAluRegImm) :
    decode w =
      if func3Field w = 0 then .ok (.addi (rdField w) (rs1Field w) (immI w))
      else .error .unrecognizedFunction := by
  rw [decode, decodeFields, hop]
  rfl

theorem decode_lui {w : Word} (hop : opcodeField w = selLui) :
    decode w = .ok (.lui (rdField w) (immU w)) := by
  rw [decode, decodeFields, hop]
  rfl

theorem decode_auipc {w : Word} (hop : opcodeField w = selAuipc) :
    decode w = .ok (.auipc (rdField w) (immU w)) := by
  rw [decode, decodeFields, hop]
  rfl

end Sys2Proof

namespace Sys2Proof.Machine

open Sys2Proof.Claims

/-! ## The value each instruction hands to the operation they share -/

theorem exec_add (rd rs1 rs2 : RegIdx) (s : State) :
    exec (.add rd rs1 rs2) s = execAlu rd (s.readReg rs1 + s.readReg rs2) s := rfl

theorem exec_sub (rd rs1 rs2 : RegIdx) (s : State) :
    exec (.sub rd rs1 rs2) s = execAlu rd (s.readReg rs1 - s.readReg rs2) s := rfl

theorem exec_addi (rd rs1 : RegIdx) (imm : Word) (s : State) :
    exec (.addi rd rs1 imm) s = execAlu rd (s.readReg rs1 + imm) s := rfl

theorem exec_lui (rd : RegIdx) (imm : Word) (s : State) :
    exec (.lui rd imm) s = execAlu rd imm s := rfl

theorem exec_auipc (rd : RegIdx) (imm : Word) (s : State) :
    exec (.auipc rd imm) s = execAlu rd (s.pc + imm) s := rfl

/-- A step on a word whose instruction is one of the five. -/
theorem step_writesReg_of_exec_eq_execAlu {s : State} {w : Word} {i : Instr} {rd : RegIdx}
    {v : Word} (hrun : s.status = .running) (hfetch : s.fetch = some w) (hdec : decode w = .ok i)
    (halu : exec i s = execAlu rd v s) :
    ∃ t, step s = .next t ∧ WritesReg s t rd v (s.pc + 4) := by
  refine ⟨(s.writeReg rd v).advance, ?_, writeReg_advance_writesReg s rd v⟩
  rw [step_of_decode_ok hrun hfetch hdec, halu, execAlu_running hrun]

/-! ## The obligations -/

/-- Settles O24, along the three ways a word of the class decodes: ADD, SUB, no instruction. -/
theorem aluRegRegClassStep : Obligations.AluRegRegClassStep := by
  intro s w hrun hfetch hop
  have hdec := decode_aluRegReg hop
  by_cases hadd : func3Field w = 0 ∧ func7Field w = 0
  · simp only [if_pos hadd] at hdec ⊢
    exact step_writesReg_of_exec_eq_execAlu hrun hfetch hdec (exec_add ..)
  · by_cases hsub : func3Field w = 0 ∧ func7Field w = 0b0100000
    · simp only [if_neg hadd, if_pos hsub] at hdec ⊢
      exact step_writesReg_of_exec_eq_execAlu hrun hfetch hdec (exec_sub ..)
    · simp only [if_neg hadd, if_neg hsub] at hdec ⊢
      exact step_skips_of_decode_error hrun hfetch hdec

/-- Settles O25, along the two ways a word of the class decodes: ADDI, no instruction. -/
theorem aluRegImmClassStep : Obligations.AluRegImmClassStep := by
  intro s w hrun hfetch hop
  have hdec := decode_aluRegImm hop
  by_cases haddi : func3Field w = 0
  · simp only [if_pos haddi] at hdec ⊢
    exact step_writesReg_of_exec_eq_execAlu hrun hfetch hdec (exec_addi ..)
  · simp only [if_neg haddi] at hdec ⊢
    exact step_skips_of_decode_error hrun hfetch hdec

/-- Settles O26: every word of either class decodes to its one instruction. -/
theorem upperImmediateClassStep : Obligations.UpperImmediateClassStep := by
  intro s w hrun hfetch
  constructor
  · intro hop
    exact step_writesReg_of_exec_eq_execAlu hrun hfetch (decode_lui hop) (exec_lui ..)
  · intro hop
    exact step_writesReg_of_exec_eq_execAlu hrun hfetch (decode_auipc hop) (exec_auipc ..)

end Sys2Proof.Machine
end

section
/-! The jump classes of 41_control.md, from the fetched word to the state after the step. A fault
record holds the encoding of the instruction that raised it (60_exceptions.md R201), so the I and J
formats are first shown to give back the word whose fields they are given. -/

namespace Sys2Proof

/-! ## A word from its own fields -/

/-- R94: the I format repacks the fields and the immediate it was split into. -/
theorem encI_of_fields (w : Word) :
    encI (immI w) (rs1Field w) (func3Field w) (rdField w) (opcodeField w) = w := by
  apply BitVec.eq_of_getLsbD_eq
  intro i hi
  simp only [encI_bit, immI, rs1Field, func3Field, rdField, opcodeField, BitVec.getLsbD_signExtend,
    BitVec.getLsbD_extractLsb']
  interval_cases i <;> simp

/-- R98: the J format puts each bit of the immediate back where R103 took it from. -/
theorem encJ_of_fields (w : Word) : encJ (immJ w) (rdField w) (opcodeField w) = w := by
  apply BitVec.eq_of_getLsbD_eq
  intro i hi
  simp only [encJ_bit, immJ, rdField, opcodeField, BitVec.getLsbD_signExtend,
    BitVec.getLsbD_append, BitVec.getLsbD_extractLsb']
  interval_cases i <;> simp

/-! ## What the words of each class decode to, and back -/

theorem decode_jal {w : Word} (hop : opcodeField w = selJal) :
    decode w = .ok (.jal (rdField w) (immJ w)) := by
  rw [decode, decodeFields, hop]
  rfl

theorem decode_jalr {w : Word} (hop : opcodeField w = selJalr) :
    decode w =
      if func3Field w = 0 then .ok (.jalr (rdField w) (rs1Field w) (immI w))
      else .error .unrecognizedFunction := by
  rw [decode, decodeFields, hop]
  rfl

theorem encode_jal_of_fields {w : Word} (hop : opcodeField w = selJal) :
    encode (.jal (rdField w) (immJ w)) = w := by
  rw [encode, ← hop, encJ_of_fields]

theorem encode_jalr_of_fields {w : Word} (hop : opcodeField w = selJalr)
    (hf3 : func3Field w = f3Zero) :
    encode (.jalr (rdField w) (rs1Field w) (immI w)) = w := by
  rw [encode, ← hop, ← hf3, encI_of_fields]

end Sys2Proof

namespace Sys2Proof.Machine

open Sys2Proof.Claims

/-! ## What a jump leaves behind -/

theorem raise_stops {s : State} (hrun : s.status = .running) {kind : FaultKind}
    (hstop : kind.policy = .stop) (w addr : Word) :
    Stops s (s.raise kind w addr) kind w addr := by
  obtain ⟨hhalted, -⟩ := (State.status_running s).mp hrun
  simp [Stops, SameRegs, SameCells, State.raise_pc, State.raise_fatal, State.status_faulted, hstop,
    hhalted]

theorem writeReg_setPc_writesReg (s : State) (rd : RegIdx) (v target : Word) :
    WritesReg s ((s.writeReg rd v).setPc target) rd v target := by
  simp [WritesReg, RegWritten, SameCells, SameRun, State.rawReg_writeReg]

/-- R150, R151, R154: what JAL and JALR share. The link is written only where the target is
aligned. -/
theorem transfer_link {s : State} (hrun : s.status = .running) (w target : Word) (rd : RegIdx) :
    if target.toNat % 4 = 0 then
      WritesReg s (transfer w target (s.writeReg rd s.nextPc) s) rd (s.pc + 4) target
    else
      Stops s (transfer w target (s.writeReg rd s.nextPc) s) .misalignedTarget w target := by
  rcases transfer_cases w target (s.writeReg rd s.nextPc) s with ⟨ha, ht⟩ | ⟨ha, ht⟩
  · rw [if_pos ha, ht]
    exact writeReg_setPc_writesReg s rd (s.pc + 4) target
  · rw [if_neg ha, ht]
    exact raise_stops hrun rfl w target

/-! ## The transfer each instruction makes -/

theorem exec_jal {s : State} (hrun : s.status = .running) (rd : RegIdx) (imm : Word) :
    exec (.jal rd imm) s =
      .next (transfer (encode (.jal rd imm)) (s.pc + imm) (s.writeReg rd s.nextPc) s) :=
  whenRunning_running hrun

theorem exec_jalr {s : State} (hrun : s.status = .running) (rd rs1 : RegIdx) (imm : Word) :
    exec (.jalr rd rs1 imm) s =
      .next (transfer (encode (.jalr rd rs1 imm)) ((s.pc + imm) &&& 0xFFFFFFFE)
        (s.writeReg rd s.nextPc) s) :=
  whenRunning_running hrun

/-! ## The obligations -/

/-- Settles O27: every word of the class decodes to JAL, whose encoding is that word. -/
theorem jalClassStep : Obligations.JalClassStep := by
  intro s w hrun hfetch hop
  refine ⟨_, ?_, transfer_link hrun w (s.pc + immJ w) (rdField w)⟩
  rw [step_of_decode_ok hrun hfetch (decode_jal hop), exec_jal hrun, encode_jal_of_fields hop]

/-- Settles O28, along the two ways a word of the class decodes: no instruction, or JALR, whose
encoding is that word. -/
theorem jalrClassStep : Obligations.JalrClassStep := by
  intro s w hrun hfetch hop
  have hdec := decode_jalr hop
  by_cases hf3 : func3Field w = 0
  · rw [if_pos hf3] at hdec
    simp only [if_neg (not_not.mpr hf3)]
    refine ⟨_, ?_, transfer_link hrun w ((s.pc + immI w) &&& 0xFFFFFFFE) (rdField w)⟩
    rw [step_of_decode_ok hrun hfetch hdec, exec_jalr hrun, encode_jalr_of_fields hop hf3]
  · rw [if_neg hf3] at hdec
    simp only [if_pos hf3]
    exact step_skips_of_decode_error hrun hfetch hdec

end Sys2Proof.Machine
end

section
/-! Words and instructions, both ways (30_encoding.md sections 2 to 7): every field of an encoded
word is the operand it was packed from, and a word is repacked from its own fields. -/

namespace Sys2Proof

/-! ## The fields of an encoded word -/

theorem extractLsb'_eq_of_bit {w : Word} {lo n : Nat} {x : BitVec n}
    (h : ∀ i < n, w.getLsbD (lo + i) = x.getLsbD i) : w.extractLsb' lo n = x := by
  apply BitVec.eq_of_getLsbD_eq
  intro i hi
  rw [BitVec.getLsbD_extractLsb', decide_eq_true hi, Bool.true_and, h i hi]

@[simp] theorem encR_fields (f7 : BitVec 7) (rs2 rs1 : RegIdx) (f3 : BitVec 3) (rd : RegIdx)
    (op : BitVec 7) :
    opcodeField (encR f7 rs2 rs1 f3 rd op) = op ∧ rdField (encR f7 rs2 rs1 f3 rd op) = rd ∧
    func3Field (encR f7 rs2 rs1 f3 rd op) = f3 ∧ rs1Field (encR f7 rs2 rs1 f3 rd op) = rs1 ∧
    rs2Field (encR f7 rs2 rs1 f3 rd op) = rs2 ∧ func7Field (encR f7 rs2 rs1 f3 rd op) = f7 := by
  refine ⟨?_, ?_, ?_, ?_, ?_, ?_⟩ <;>
    refine extractLsb'_eq_of_bit fun i hi => ?_ <;> rw [encR_bit] <;> interval_cases i <;> rfl

@[simp] theorem encI_fields (imm : Word) (rs1 : RegIdx) (f3 : BitVec 3) (rd : RegIdx)
    (op : BitVec 7) :
    opcodeField (encI imm rs1 f3 rd op) = op ∧ rdField (encI imm rs1 f3 rd op) = rd ∧
    func3Field (encI imm rs1 f3 rd op) = f3 ∧ rs1Field (encI imm rs1 f3 rd op) = rs1 := by
  refine ⟨?_, ?_, ?_, ?_⟩ <;>
    refine extractLsb'_eq_of_bit fun i hi => ?_ <;> rw [encI_bit] <;> interval_cases i <;> rfl

@[simp] theorem encS_fields (imm : Word) (rs2 rs1 : RegIdx) (f3 : BitVec 3) (op : BitVec 7) :
    opcodeField (encS imm rs2 rs1 f3 op) = op ∧ func3Field (encS imm rs2 rs1 f3 op) = f3 ∧
    rs1Field (encS imm rs2 rs1 f3 op) = rs1 ∧ rs2Field (encS imm rs2 rs1 f3 op) = rs2 := by
  refine ⟨?_, ?_, ?_, ?_⟩ <;>
    refine extractLsb'_eq_of_bit fun i hi => ?_ <;> rw [encS_bit] <;> interval_cases i <;> rfl

@[simp] theorem encB_fields (imm : Word) (rs2 rs1 : RegIdx) (f3 : BitVec 3) (op : BitVec 7) :
    opcodeField (encB imm rs2 rs1 f3 op) = op ∧ func3Field (encB imm rs2 rs1 f3 op) = f3 ∧
    rs1Field (encB imm rs2 rs1 f3 op) = rs1 ∧ rs2Field (encB imm rs2 rs1 f3 op) = rs2 := by
  refine ⟨?_, ?_, ?_, ?_⟩ <;>
    refine extractLsb'_eq_of_bit fun i hi => ?_ <;> rw [encB_bit] <;> interval_cases i <;> rfl

@[simp] theorem encU_fields (imm : Word) (rd : RegIdx) (op : BitVec 7) :
    opcodeField (encU imm rd op) = op ∧ rdField (encU imm rd op) = rd := by
  refine ⟨?_, ?_⟩ <;>
    refine extractLsb'_eq_of_bit fun i hi => ?_ <;> rw [encU_bit] <;> interval_cases i <;> rfl

@[simp] theorem encJ_fields (imm : Word) (rd : RegIdx) (op : BitVec 7) :
    opcodeField (encJ imm rd op) = op ∧ rdField (encJ imm rd op) = rd := by
  refine ⟨?_, ?_⟩ <;>
    refine extractLsb'_eq_of_bit fun i hi => ?_ <;> rw [encJ_bit] <;> interval_cases i <;> rfl

/-! ## The immediate of an encoded word -/

/-- A word in the signed range of `n` bits is its own low `n` bits, sign-extended. -/
theorem signExtend_setWidth_of_toInt_mem {n : Nat} {v : Word} (hn : n ≤ 32)
    (hlow : -((2 ^ n : Nat) / 2 : Int) ≤ v.toInt)
    (hhigh : v.toInt < ((2 ^ n : Nat) + 1 : Int) / 2) :
    (v.setWidth n).signExtend 32 = v := by
  apply BitVec.eq_of_toInt_eq
  rw [BitVec.toInt_signExtend_of_le hn, BitVec.toInt_setWidth]
  calc (v.toNat : Int).bmod (2 ^ n)
      = ((v.toNat : Int).bmod (2 ^ 32)).bmod (2 ^ n) :=
        (Int.bmod_bmod_of_dvd (Nat.pow_dvd_pow 2 hn)).symm
    _ = v.toInt.bmod (2 ^ n) := by rw [← BitVec.toInt_eq_toNat_bmod]
    _ = v.toInt := Int.bmod_eq_of_le hlow hhigh

/-- Dropping the low bits of a word and putting zeros in their place. -/
theorem toNat_extractLsb'_append_zero (v : Word) :
    (v.extractLsb' 12 20 ++ 0#12).toNat = v.toNat / 4096 * 4096 := by
  have hv := v.isLt
  rw [BitVec.toNat_append, BitVec.extractLsb'_toNat, BitVec.toNat_zero, Nat.or_zero,
    Nat.shiftLeft_eq, Nat.shiftRight_eq_div_pow]
  omega

theorem extractLsb'_append_zero_of_multiple {v : Word} (hv : v.toNat % 4096 = 0) :
    v.extractLsb' 12 20 ++ 0#12 = v := by
  apply BitVec.eq_of_toNat_eq
  rw [toNat_extractLsb'_append_zero]
  omega

theorem getElem_zero_of_even {v : Word} (h : v.toInt % 2 = 0) : v[0] = false := by
  have := BitVec.toInt_eq_toNat_cond v
  rw [BitVec.getElem_eq_testBit_toNat, Nat.testBit_zero, decide_eq_false_iff_not]
  split at this <;> omega

/-- R94: bits 11:0 of the operand come back sign-extended. -/
theorem immI_encI (imm : Word) (rs1 : RegIdx) (f3 : BitVec 3) (rd : RegIdx) (op : BitVec 7) :
    immI (encI imm rs1 f3 rd op) = (imm.setWidth 12).signExtend 32 := by
  rw [immI]
  congr 1
  refine extractLsb'_eq_of_bit fun i hi => ?_
  rw [encI_bit]
  interval_cases i <;> simp

/-- R95: bits 11:0 of the operand come back sign-extended. -/
theorem immS_encS (imm : Word) (rs2 rs1 : RegIdx) (f3 : BitVec 3) (op : BitVec 7) :
    immS (encS imm rs2 rs1 f3 op) = (imm.setWidth 12).signExtend 32 := by
  rw [immS]
  congr 1
  apply BitVec.eq_of_getLsbD_eq
  intro i hi
  simp only [BitVec.getLsbD_append, BitVec.getLsbD_extractLsb', encS_bit]
  interval_cases i <;> simp

/-- R96: bits 12:0 of an even operand come back sign-extended. -/
theorem immB_encB {imm : Word} (heven : imm[0] = false) (rs2 rs1 : RegIdx) (f3 : BitVec 3)
    (op : BitVec 7) : immB (encB imm rs2 rs1 f3 op) = (imm.setWidth 13).signExtend 32 := by
  rw [immB]
  congr 1
  apply BitVec.eq_of_getLsbD_eq
  intro i hi
  simp only [BitVec.getLsbD_append, BitVec.getLsbD_extractLsb', encB_bit]
  interval_cases i <;> simp [heven]

/-- R97: bits 31:12 of the operand come back in their place. -/
theorem immU_encU (imm : Word) (rd : RegIdx) (op : BitVec 7) :
    immU (encU imm rd op) = imm.extractLsb' 12 20 ++ 0#12 := by
  rw [immU]
  congr 1
  refine extractLsb'_eq_of_bit fun i hi => ?_
  rw [encU_bit]
  interval_cases i <;> simp

/-- R98: bits 20:0 of an even operand come back sign-extended. -/
theorem immJ_encJ {imm : Word} (heven : imm[0] = false) (rd : RegIdx) (op : BitVec 7) :
    immJ (encJ imm rd op) = (imm.setWidth 21).signExtend 32 := by
  rw [immJ]
  congr 1
  apply BitVec.eq_of_getLsbD_eq
  intro i hi
  simp only [BitVec.getLsbD_append, BitVec.getLsbD_extractLsb', encJ_bit]
  interval_cases i <;> simp [heven]

theorem signExtend_of_fitsImm12 {imm : Word} (h : fitsImm12 imm = true) :
    (imm.setWidth 12).signExtend 32 = imm := by
  simp only [fitsImm12, Bool.and_eq_true, decide_eq_true_eq] at h
  exact signExtend_setWidth_of_toInt_mem (by decide) (by omega) (by omega)

theorem immI_encI_of_fits {imm : Word} (h : fitsImm12 imm = true) (rs1 : RegIdx) (f3 : BitVec 3)
    (rd : RegIdx) (op : BitVec 7) : immI (encI imm rs1 f3 rd op) = imm := by
  rw [immI_encI, signExtend_of_fitsImm12 h]

theorem immS_encS_of_fits {imm : Word} (h : fitsImm12 imm = true) (rs2 rs1 : RegIdx)
    (f3 : BitVec 3) (op : BitVec 7) : immS (encS imm rs2 rs1 f3 op) = imm := by
  rw [immS_encS, signExtend_of_fitsImm12 h]

theorem immB_encB_of_fits {imm : Word} (h : fitsImmB imm = true) (rs2 rs1 : RegIdx)
    (f3 : BitVec 3) (op : BitVec 7) : immB (encB imm rs2 rs1 f3 op) = imm := by
  simp only [fitsImmB, Bool.and_eq_true, decide_eq_true_eq] at h
  obtain ⟨⟨hlow, hhigh⟩, heven⟩ := h
  rw [immB_encB (getElem_zero_of_even heven)]
  exact signExtend_setWidth_of_toInt_mem (by decide) (by omega) (by omega)

theorem immU_encU_of_fits {imm : Word} (h : fitsImmU imm = true) (rd : RegIdx) (op : BitVec 7) :
    immU (encU imm rd op) = imm := by
  rw [immU_encU, extractLsb'_append_zero_of_multiple (of_decide_eq_true h)]

theorem immJ_encJ_of_fits {imm : Word} (h : fitsImmJ imm = true) (rd : RegIdx) (op : BitVec 7) :
    immJ (encJ imm rd op) = imm := by
  simp only [fitsImmJ, Bool.and_eq_true, decide_eq_true_eq] at h
  obtain ⟨⟨hlow, hhigh⟩, heven⟩ := h
  rw [immJ_encJ (getElem_zero_of_even heven)]
  exact signExtend_setWidth_of_toInt_mem (by decide) (by omega) (by omega)

/-! ## A word from its own fields -/

/-- R93. -/
theorem encR_of_fields (w : Word) :
    encR (func7Field w) (rs2Field w) (rs1Field w) (func3Field w) (rdField w) (opcodeField w) =
      w := by
  apply BitVec.eq_of_getLsbD_eq
  intro i hi
  simp only [encR_bit, func7Field, rs2Field, rs1Field, func3Field, rdField, opcodeField,
    BitVec.getLsbD_extractLsb']
  interval_cases i <;> simp

/-- R95. -/
theorem encS_of_fields (w : Word) :
    encS (immS w) (rs2Field w) (rs1Field w) (func3Field w) (opcodeField w) = w := by
  apply BitVec.eq_of_getLsbD_eq
  intro i hi
  simp only [encS_bit, immS, rs2Field, rs1Field, func3Field, opcodeField,
    BitVec.getLsbD_signExtend, BitVec.getLsbD_append, BitVec.getLsbD_extractLsb']
  interval_cases i <;> simp

/-- R96. -/
theorem encB_of_fields (w : Word) :
    encB (immB w) (rs2Field w) (rs1Field w) (func3Field w) (opcodeField w) = w := by
  apply BitVec.eq_of_getLsbD_eq
  intro i hi
  simp only [encB_bit, immB, rs2Field, rs1Field, func3Field, opcodeField,
    BitVec.getLsbD_signExtend, BitVec.getLsbD_append, BitVec.getLsbD_extractLsb']
  interval_cases i <;> simp

/-- R97. -/
theorem encU_of_fields (w : Word) : encU (immU w) (rdField w) (opcodeField w) = w := by
  apply BitVec.eq_of_getLsbD_eq
  intro i hi
  simp only [encU_bit, immU, rdField, opcodeField, BitVec.getLsbD_append,
    BitVec.getLsbD_extractLsb']
  interval_cases i <;> simp

end Sys2Proof
end

section
/-! The decoder class by class (30_encoding.md sections 4 to 7), and the encoder as its inverse. -/

namespace Sys2Proof

open Sys2Proof.Machine

/-! ## The three widths of loads and stores -/

/-- R108: the func3 of a width. -/
def widthFunc3 : Width → BitVec 3
  | .byte => f3Byte
  | .half => f3Half
  | .word => f3Word

/-- LB, LH or LW. -/
def loadInstr (n : Width) (rd rs1 : RegIdx) (imm : Word) : Instr :=
  match n with
  | .byte => .lb rd rs1 imm
  | .half => .lh rd rs1 imm
  | .word => .lw rd rs1 imm

/-- SB, SH or SW. -/
def storeInstr (n : Width) (rs1 rs2 : RegIdx) (imm : Word) : Instr :=
  match n with
  | .byte => .sb rs1 rs2 imm
  | .half => .sh rs1 rs2 imm
  | .word => .sw rs1 rs2 imm

theorem encode_loadInstr (n : Width) (rd rs1 : RegIdx) (imm : Word) :
    encode (loadInstr n rd rs1 imm) = encI imm rs1 (widthFunc3 n) rd selLoad := by
  cases n <;> rfl

theorem encode_storeInstr (n : Width) (rs1 rs2 : RegIdx) (imm : Word) :
    encode (storeInstr n rs1 rs2 imm) = encS imm rs2 rs1 (widthFunc3 n) selStore := by
  cases n <;> rfl

/-- R108, R109: a func3 is that of a width, or is unlisted for loads and stores. -/
theorem func3_width_cases (f3 : BitVec 3) : (∃ n, f3 = widthFunc3 n) ∨ 3 ≤ f3.toNat := by
  by_cases h0 : f3 = f3Byte
  · exact .inl ⟨.byte, h0⟩
  by_cases h1 : f3 = f3Half
  · exact .inl ⟨.half, h1⟩
  by_cases h2 : f3 = f3Word
  · exact .inl ⟨.word, h2⟩
  · simp only [f3Byte, f3Half, f3Word] at h0 h1 h2
    exact .inr (by bv_omega)

theorem ne_widthFunc3 {f3 : BitVec 3} (hf3 : 3 ≤ f3.toNat) (n : Width) : f3 ≠ widthFunc3 n := by
  rintro rfl
  cases n <;> exact absurd hf3 (by decide)

/-- R108, R109: a func3 is that of BEQ, of BNE, or unlisted for branches. -/
theorem func3_branch_cases (f3 : BitVec 3) : f3 = f3Beq ∨ f3 = f3Bne ∨ 2 ≤ f3.toNat := by
  by_cases h0 : f3 = f3Beq
  · exact .inl h0
  by_cases h1 : f3 = f3Bne
  · exact .inr (.inl h1)
  · simp only [f3Beq, f3Bne] at h0 h1
    exact .inr (.inr (by bv_omega))

/-! ## What the words of each class decode to -/

/-- R104: the ten selectors, in the order of the table. -/
def selectors : List (BitVec 7) :=
  [selAluRegReg, selAluRegImm, selJal, selJalr, selBranch, selLoad, selStore, selDebugBreak,
    selLui, selAuipc]

theorem decode_unrecognized {w : Word} (hop : opcodeField w ∉ selectors) :
    decode w = .error .unrecognizedSelector := by
  simp only [selectors, List.mem_cons, List.not_mem_nil, or_false, not_or] at hop
  simp [decode, decodeFields, classOf, hop, selectInstr]

theorem decode_beq {w : Word} (hop : opcodeField w = selBranch) (hf3 : func3Field w = f3Beq) :
    decode w = .ok (.beq (rs1Field w) (rs2Field w) (immB w)) := by
  rw [decode, decodeFields, hop]
  exact if_pos hf3

theorem decode_bne {w : Word} (hop : opcodeField w = selBranch) (hf3 : func3Field w = f3Bne) :
    decode w = .ok (.bne (rs1Field w) (rs2Field w) (immB w)) := by
  rw [decode, decodeFields, hop, hf3]
  rfl

theorem decode_branch_unlisted {w : Word} (hop : opcodeField w = selBranch)
    (hf3 : 2 ≤ (func3Field w).toNat) : decode w = .error .unrecognizedFunction := by
  have hbeq : func3Field w ≠ f3Beq := by intro h; simp [h, f3Beq] at hf3
  have hbne : func3Field w ≠ f3Bne := by intro h; simp [h, f3Bne] at hf3
  rw [decode, decodeFields, hop]
  exact (if_neg hbeq).trans (if_neg hbne)

theorem decode_load {w : Word} {n : Width} (hop : opcodeField w = selLoad)
    (hf3 : func3Field w = widthFunc3 n) :
    decode w = .ok (loadInstr n (rdField w) (rs1Field w) (immI w)) := by
  rw [decode, decodeFields, hop, hf3]
  cases n <;> rfl

theorem decode_load_unlisted {w : Word} (hop : opcodeField w = selLoad)
    (hf3 : 3 ≤ (func3Field w).toNat) : decode w = .error .unrecognizedFunction := by
  rw [decode, decodeFields, hop]
  exact (if_neg (ne_widthFunc3 hf3 .byte)).trans
    ((if_neg (ne_widthFunc3 hf3 .half)).trans (if_neg (ne_widthFunc3 hf3 .word)))

theorem decode_store {w : Word} {n : Width} (hop : opcodeField w = selStore)
    (hf3 : func3Field w = widthFunc3 n) :
    decode w = .ok (storeInstr n (rs1Field w) (rs2Field w) (immS w)) := by
  rw [decode, decodeFields, hop, hf3]
  cases n <;> rfl

theorem decode_store_unlisted {w : Word} (hop : opcodeField w = selStore)
    (hf3 : 3 ≤ (func3Field w).toNat) : decode w = .error .unrecognizedFunction := by
  rw [decode, decodeFields, hop]
  exact (if_neg (ne_widthFunc3 hf3 .byte)).trans
    ((if_neg (ne_widthFunc3 hf3 .half)).trans (if_neg (ne_widthFunc3 hf3 .word)))

theorem decode_debugBreak {w : Word} (hop : opcodeField w = selDebugBreak) :
    decode w = .ok (.ebreak (rdField w) (func3Field w) (rs1Field w) (immI w)) := by
  rw [decode, decodeFields, hop]
  rfl

theorem opcode_cases (op : BitVec 7) :
    op = selAluRegReg ∨ op = selAluRegImm ∨ op = selJal ∨ op = selJalr ∨ op = selBranch ∨
    op = selLoad ∨ op = selStore ∨ op = selDebugBreak ∨ op = selLui ∨ op = selAuipc ∨
    op ∉ selectors := by
  simp only [selectors, List.mem_cons, List.not_mem_nil, or_false]
  tauto

/-! ## Decoding an encoded instruction -/

theorem decode_encode_loadInstr (n : Width) (rd rs1 : RegIdx) {imm : Word}
    (h : fitsImm12 imm = true) :
    decode (encode (loadInstr n rd rs1 imm)) = .ok (loadInstr n rd rs1 imm) := by
  rw [encode_loadInstr, decode_load (n := n) (by simp) (by simp), immI_encI_of_fits h]
  simp

theorem decode_encode_storeInstr (n : Width) (rs1 rs2 : RegIdx) {imm : Word}
    (h : fitsImm12 imm = true) :
    decode (encode (storeInstr n rs1 rs2 imm)) = .ok (storeInstr n rs1 rs2 imm) := by
  rw [encode_storeInstr, decode_store (n := n) (by simp) (by simp), immS_encS_of_fits h]
  simp

/-- Settles O33, instruction by instruction: the encoded word has the instruction's selector and
functions, so its class decodes it, and its fields and immediate are the operands. -/
theorem decodeEncodeRoundTrip : Obligations.DecodeEncodeRoundTrip := by
  intro i hwf
  cases i with
  | add rd rs1 rs2 => rw [encode, decode_aluRegReg (by simp)]; simp [f3Zero, f7Add]
  | sub rd rs1 rs2 => rw [encode, decode_aluRegReg (by simp)]; simp [f3Zero, f7Sub]
  | addi rd rs1 imm =>
    rw [encode, decode_aluRegImm (by simp), immI_encI_of_fits hwf]; simp [f3Zero]
  | lui rd imm => rw [encode, decode_lui (by simp), immU_encU_of_fits hwf]; simp
  | auipc rd imm => rw [encode, decode_auipc (by simp), immU_encU_of_fits hwf]; simp
  | jal rd imm => rw [encode, decode_jal (by simp), immJ_encJ_of_fits hwf]; simp
  | jalr rd rs1 imm => rw [encode, decode_jalr (by simp), immI_encI_of_fits hwf]; simp [f3Zero]
  | beq rs1 rs2 imm => rw [encode, decode_beq (by simp) (by simp), immB_encB_of_fits hwf]; simp
  | bne rs1 rs2 imm => rw [encode, decode_bne (by simp) (by simp), immB_encB_of_fits hwf]; simp
  | lb rd rs1 imm => exact decode_encode_loadInstr .byte rd rs1 hwf
  | lh rd rs1 imm => exact decode_encode_loadInstr .half rd rs1 hwf
  | lw rd rs1 imm => exact decode_encode_loadInstr .word rd rs1 hwf
  | sb rs1 rs2 imm => exact decode_encode_storeInstr .byte rs1 rs2 hwf
  | sh rs1 rs2 imm => exact decode_encode_storeInstr .half rs1 rs2 hwf
  | sw rs1 rs2 imm => exact decode_encode_storeInstr .word rs1 rs2 hwf
  | ebreak rd func3 rs1 imm =>
    rw [encode, decode_debugBreak (by simp), immI_encI_of_fits hwf]; simp

end Sys2Proof
end

section
/-! Every word that decodes is the encoding of what it decodes to (30_encoding.md section 7), and so
the masks, the matches and the rejected words of sections 5 to 7. -/

namespace Sys2Proof

open Sys2Proof.Machine

/-! ## Encoding the fields of a word of a class -/

theorem encode_add_of_fields {w : Word} (hop : opcodeField w = selAluRegReg)
    (hf3 : func3Field w = f3Zero) (hf7 : func7Field w = f7Add) :
    encode (.add (rdField w) (rs1Field w) (rs2Field w)) = w := by
  rw [encode, ← hop, ← hf3, ← hf7, encR_of_fields]

theorem encode_sub_of_fields {w : Word} (hop : opcodeField w = selAluRegReg)
    (hf3 : func3Field w = f3Zero) (hf7 : func7Field w = f7Sub) :
    encode (.sub (rdField w) (rs1Field w) (rs2Field w)) = w := by
  rw [encode, ← hop, ← hf3, ← hf7, encR_of_fields]

theorem encode_addi_of_fields {w : Word} (hop : opcodeField w = selAluRegImm)
    (hf3 : func3Field w = f3Zero) : encode (.addi (rdField w) (rs1Field w) (immI w)) = w := by
  rw [encode, ← hop, ← hf3, encI_of_fields]

theorem encode_lui_of_fields {w : Word} (hop : opcodeField w = selLui) :
    encode (.lui (rdField w) (immU w)) = w := by
  rw [encode, ← hop, encU_of_fields]

theorem encode_auipc_of_fields {w : Word} (hop : opcodeField w = selAuipc) :
    encode (.auipc (rdField w) (immU w)) = w := by
  rw [encode, ← hop, encU_of_fields]

theorem encode_beq_of_fields {w : Word} (hop : opcodeField w = selBranch)
    (hf3 : func3Field w = f3Beq) : encode (.beq (rs1Field w) (rs2Field w) (immB w)) = w := by
  rw [encode, ← hop, ← hf3, encB_of_fields]

theorem encode_bne_of_fields {w : Word} (hop : opcodeField w = selBranch)
    (hf3 : func3Field w = f3Bne) : encode (.bne (rs1Field w) (rs2Field w) (immB w)) = w := by
  rw [encode, ← hop, ← hf3, encB_of_fields]

theorem encode_loadInstr_of_fields {w : Word} {n : Width} (hop : opcodeField w = selLoad)
    (hf3 : func3Field w = widthFunc3 n) :
    encode (loadInstr n (rdField w) (rs1Field w) (immI w)) = w := by
  rw [encode_loadInstr, ← hop, ← hf3, encI_of_fields]

theorem encode_storeInstr_of_fields {w : Word} {n : Width} (hop : opcodeField w = selStore)
    (hf3 : func3Field w = widthFunc3 n) :
    encode (storeInstr n (rs1Field w) (rs2Field w) (immS w)) = w := by
  rw [encode_storeInstr, ← hop, ← hf3, encS_of_fields]

theorem encode_ebreak_of_fields {w : Word} (hop : opcodeField w = selDebugBreak) :
    encode (.ebreak (rdField w) (func3Field w) (rs1Field w) (immI w)) = w := by
  rw [encode, ← hop, encI_of_fields]

theorem wellFormed_loadInstr (n : Width) (rd rs1 : RegIdx) (imm : Word) :
    (loadInstr n rd rs1 imm).wellFormed = fitsImm12 imm := by
  cases n <;> rfl

theorem wellFormed_storeInstr (n : Width) (rs1 rs2 : RegIdx) (imm : Word) :
    (storeInstr n rs1 rs2 imm).wellFormed = fitsImm12 imm := by
  cases n <;> rfl

/-- Settles O34, class by class: a class decodes its words to instructions made of their own
fields, whose immediate fits and whose encoding packs those fields again. -/
theorem encodeDecodeRoundTrip : Obligations.EncodeDecodeRoundTrip := by
  intro w i hdec
  rcases opcode_cases (opcodeField w) with
    hop | hop | hop | hop | hop | hop | hop | hop | hop | hop | hop
  · rw [decode_aluRegReg hop] at hdec
    split_ifs at hdec with hadd hsub
    · cases hdec; exact ⟨rfl, encode_add_of_fields hop hadd.1 hadd.2⟩
    · cases hdec; exact ⟨rfl, encode_sub_of_fields hop hsub.1 hsub.2⟩
  · rw [decode_aluRegImm hop] at hdec
    split_ifs at hdec with hf3
    cases hdec; exact ⟨fitsImm12_signExtend _, encode_addi_of_fields hop hf3⟩
  · rw [decode_jal hop] at hdec
    cases hdec; exact ⟨fitsImmJ_immJ w, encode_jal_of_fields hop⟩
  · rw [decode_jalr hop] at hdec
    split_ifs at hdec with hf3
    cases hdec; exact ⟨fitsImm12_signExtend _, encode_jalr_of_fields hop hf3⟩
  · rcases func3_branch_cases (func3Field w) with hf3 | hf3 | hf3
    · rw [decode_beq hop hf3] at hdec
      cases hdec; exact ⟨fitsImmB_immB w, encode_beq_of_fields hop hf3⟩
    · rw [decode_bne hop hf3] at hdec
      cases hdec; exact ⟨fitsImmB_immB w, encode_bne_of_fields hop hf3⟩
    · rw [decode_branch_unlisted hop hf3] at hdec
      cases hdec
  · rcases func3_width_cases (func3Field w) with ⟨n, hf3⟩ | hf3
    · rw [decode_load hop hf3] at hdec
      cases hdec
      exact ⟨(wellFormed_loadInstr ..).trans (fitsImm12_signExtend _),
        encode_loadInstr_of_fields hop hf3⟩
    · rw [decode_load_unlisted hop hf3] at hdec
      cases hdec
  · rcases func3_width_cases (func3Field w) with ⟨n, hf3⟩ | hf3
    · rw [decode_store hop hf3] at hdec
      cases hdec
      exact ⟨(wellFormed_storeInstr ..).trans (fitsImm12_signExtend _),
        encode_storeInstr_of_fields hop hf3⟩
    · rw [decode_store_unlisted hop hf3] at hdec
      cases hdec
  · rw [decode_debugBreak hop] at hdec
    cases hdec; exact ⟨fitsImm12_signExtend _, encode_ebreak_of_fields hop⟩
  · rw [decode_lui hop] at hdec
    cases hdec; exact ⟨fitsImmU_immU w, encode_lui_of_fields hop⟩
  · rw [decode_auipc hop] at hdec
    cases hdec; exact ⟨fitsImmU_immU w, encode_auipc_of_fields hop⟩
  · rw [decode_unrecognized hop] at hdec
    cases hdec

theorem wellFormed_of_decode {w : Word} {i : Instr} (hdec : decode w = .ok i) :
    i.wellFormed = true :=
  (encodeDecodeRoundTrip w i hdec).1

theorem encode_of_decode {w : Word} {i : Instr} (hdec : decode w = .ok i) : encode i = w :=
  (encodeDecodeRoundTrip w i hdec).2

/-! ## Masks and matches -/

open Sys2Proof.Laws in
theorem encode_and_encodingMask (i : Instr) : encode i &&& i.encodingMask = i.encodingMatch := by
  cases i with
  | add => exact EncodingMatch.add ..
  | sub => exact EncodingMatch.sub ..
  | addi => exact EncodingMatch.addi ..
  | lui => exact EncodingMatch.lui ..
  | auipc => exact EncodingMatch.auipc ..
  | jal => exact EncodingMatch.jal ..
  | jalr => exact EncodingMatch.jalr ..
  | beq => exact EncodingMatch.beq ..
  | bne => exact EncodingMatch.bne ..
  | lb => exact EncodingMatch.lb ..
  | lh => exact EncodingMatch.lh ..
  | lw => exact EncodingMatch.lw ..
  | sb => exact EncodingMatch.sb ..
  | sh => exact EncodingMatch.sh ..
  | sw => exact EncodingMatch.sw ..
  | ebreak => exact EncodingMatch.ebreak ..

/-- A word that decodes to an instruction has that instruction's match under its mask. -/
theorem and_encodingMask_of_decode {w : Word} {i : Instr} (hdec : decode w = .ok i) :
    w &&& i.encodingMask = i.encodingMatch := by
  conv_lhs => rw [← encode_of_decode hdec]
  exact encode_and_encodingMask i

/-- A mask that covers a field whole leaves it to the match. -/
theorem extractLsb'_of_and_eq {w mask m : Word} {lo n : Nat} (h : w &&& mask = m)
    (hmask : mask.extractLsb' lo n = BitVec.allOnes n) :
    w.extractLsb' lo n = m.extractLsb' lo n := by
  rw [← h, BitVec.extractLsb'_and, hmask, BitVec.and_allOnes]

theorem opcode_of_mask {w m : Word} (h : w &&& 0x0000007F = m) : opcodeField w = opcodeField m :=
  extractLsb'_of_and_eq h (by decide)

theorem opcode_func3_of_mask {w m : Word} (h : w &&& 0x0000707F = m) :
    opcodeField w = opcodeField m ∧ func3Field w = func3Field m :=
  ⟨extractLsb'_of_and_eq h (by decide), extractLsb'_of_and_eq h (by decide)⟩

theorem opcode_funcs_of_mask {w m : Word} (h : w &&& 0xFE00707F = m) :
    opcodeField w = opcodeField m ∧ func3Field w = func3Field m ∧ func7Field w = func7Field m :=
  ⟨extractLsb'_of_and_eq h (by decide), extractLsb'_of_and_eq h (by decide),
    extractLsb'_of_and_eq h (by decide)⟩

/-- Settles O36: the mask leaves exactly the fields that select the instruction, and the encoding of
the decoded instruction has its match under the mask. -/
theorem maskAndMatchSelect : Obligations.MaskAndMatchSelect := by
  intro w
  refine ⟨?_, ?_, ?_, ?_, ?_, ?_, ?_, ?_, ?_, ?_, ?_, ?_, ?_, ?_, ?_, ?_⟩ <;>
    refine ⟨fun h => ?_, and_encodingMask_of_decode⟩
  · obtain ⟨hop, hf3, hf7⟩ := opcode_funcs_of_mask h
    exact (decode_aluRegReg hop).trans (if_pos ⟨hf3, hf7⟩)
  · obtain ⟨hop, hf3, hf7⟩ := opcode_funcs_of_mask h
    rw [decode_aluRegReg hop, hf3, hf7]
    rfl
  · obtain ⟨hop, hf3⟩ := opcode_func3_of_mask h
    exact (decode_aluRegImm hop).trans (if_pos hf3)
  · exact decode_lui (opcode_of_mask h)
  · exact decode_auipc (opcode_of_mask h)
  · exact decode_jal (opcode_of_mask h)
  · obtain ⟨hop, hf3⟩ := opcode_func3_of_mask h
    exact (decode_jalr hop).trans (if_pos hf3)
  · obtain ⟨hop, hf3⟩ := opcode_func3_of_mask h
    exact decode_beq hop hf3
  · obtain ⟨hop, hf3⟩ := opcode_func3_of_mask h
    exact decode_bne hop hf3
  · obtain ⟨hop, hf3⟩ := opcode_func3_of_mask h
    exact decode_load (n := .byte) hop hf3
  · obtain ⟨hop, hf3⟩ := opcode_func3_of_mask h
    exact decode_load (n := .half) hop hf3
  · obtain ⟨hop, hf3⟩ := opcode_func3_of_mask h
    exact decode_load (n := .word) hop hf3
  · obtain ⟨hop, hf3⟩ := opcode_func3_of_mask h
    exact decode_store (n := .byte) hop hf3
  · obtain ⟨hop, hf3⟩ := opcode_func3_of_mask h
    exact decode_store (n := .half) hop hf3
  · obtain ⟨hop, hf3⟩ := opcode_func3_of_mask h
    exact decode_store (n := .word) hop hf3
  · exact decode_debugBreak (opcode_of_mask h)

/-! ## The rejected words -/

/-- R109: the class is known and does not list the word's func3 or func7. -/
def UnlistedFunction (w : Word) : Prop :=
  (opcodeField w = 0x33 ∧ ¬ (func3Field w = 0 ∧ (func7Field w = 0 ∨ func7Field w = 0x20))) ∨
  (opcodeField w = 0x13 ∧ func3Field w ≠ 0) ∨
  (opcodeField w = 0x67 ∧ func3Field w ≠ 0) ∨
  (opcodeField w = 0x63 ∧ 2 ≤ (func3Field w).toNat) ∨
  (opcodeField w = 0x03 ∧ 3 ≤ (func3Field w).toNat) ∨
  (opcodeField w = 0x23 ∧ 3 ≤ (func3Field w).toNat)

theorem decode_of_unlisted {w : Word} (h : UnlistedFunction w) :
    decode w = .error .unrecognizedFunction := by
  rcases h with ⟨hop, hf⟩ | ⟨hop, hf⟩ | ⟨hop, hf⟩ | ⟨hop, hf⟩ | ⟨hop, hf⟩ | ⟨hop, hf⟩
  · rw [decode_aluRegReg hop, if_neg fun h => hf ⟨h.1, .inl h.2⟩,
      if_neg fun h => hf ⟨h.1, .inr h.2⟩]
  · rw [decode_aluRegImm hop, if_neg hf]
  · rw [decode_jalr hop, if_neg hf]
  · exact decode_branch_unlisted hop hf
  · exact decode_load_unlisted hop hf
  · exact decode_store_unlisted hop hf

theorem decode_of_listed {w : Word} (hsel : opcodeField w ∈ selectors) (h : ¬ UnlistedFunction w) :
    ∃ i, decode w = .ok i := by
  obtain ⟨halu, hali, hjalr, hbr, hld, hst⟩ : _ ∧ _ ∧ _ ∧ _ ∧ _ ∧ _ := by
    simpa only [UnlistedFunction, not_or] using h
  rcases opcode_cases (opcodeField w) with
    hop | hop | hop | hop | hop | hop | hop | hop | hop | hop | hop
  · obtain ⟨hf3, hf7 | hf7⟩ := not_not.mp fun hf => halu ⟨hop, hf⟩
    · exact ⟨_, (decode_aluRegReg hop).trans (if_pos ⟨hf3, hf7⟩)⟩
    · rw [decode_aluRegReg hop, hf3, hf7]
      exact ⟨_, rfl⟩
  · exact ⟨_, (decode_aluRegImm hop).trans (if_pos (not_not.mp fun hf => hali ⟨hop, hf⟩))⟩
  · exact ⟨_, decode_jal hop⟩
  · exact ⟨_, (decode_jalr hop).trans (if_pos (not_not.mp fun hf => hjalr ⟨hop, hf⟩))⟩
  · rcases func3_branch_cases (func3Field w) with hf3 | hf3 | hf3
    · exact ⟨_, decode_beq hop hf3⟩
    · exact ⟨_, decode_bne hop hf3⟩
    · exact absurd ⟨hop, hf3⟩ hbr
  · rcases func3_width_cases (func3Field w) with ⟨n, hf3⟩ | hf3
    · exact ⟨_, decode_load hop hf3⟩
    · exact absurd ⟨hop, hf3⟩ hld
  · rcases func3_width_cases (func3Field w) with ⟨n, hf3⟩ | hf3
    · exact ⟨_, decode_store hop hf3⟩
    · exact absurd ⟨hop, hf3⟩ hst
  · exact ⟨_, decode_debugBreak hop⟩
  · exact ⟨_, decode_lui hop⟩
  · exact ⟨_, decode_auipc hop⟩
  · exact absurd hsel hop

/-- R106, R109, R111: the three answers of the decoder. -/
theorem decode_cases (w : Word) :
    (opcodeField w ∉ selectors ∧ decode w = .error .unrecognizedSelector) ∨
    (UnlistedFunction w ∧ decode w = .error .unrecognizedFunction) ∨
    (opcodeField w ∈ selectors ∧ ¬ UnlistedFunction w ∧ ∃ i, decode w = .ok i) := by
  by_cases hsel : opcodeField w ∈ selectors
  · by_cases hf : UnlistedFunction w
    · exact .inr (.inl ⟨hf, decode_of_unlisted hf⟩)
    · exact .inr (.inr ⟨hsel, hf, decode_of_listed hsel hf⟩)
  · exact .inl ⟨hsel, decode_unrecognized hsel⟩

/-- Settles O37: the three answers exclude each other, so each is given exactly where it is due. -/
theorem rejectedWordsAreTheListedOnes : Obligations.RejectedWordsAreTheListedOnes := by
  intro w
  refine ⟨⟨fun hdec => ?_, decode_unrecognized⟩, ⟨fun hdec => ?_, decode_of_unlisted⟩⟩
  · rcases decode_cases w with ⟨hsel, -⟩ | ⟨-, herr⟩ | ⟨-, -, i, hok⟩
    · exact hsel
    · rw [herr] at hdec; cases hdec
    · rw [hok] at hdec; cases hdec
  · rcases decode_cases w with ⟨-, herr⟩ | ⟨hf, -⟩ | ⟨-, -, i, hok⟩
    · rw [herr] at hdec; cases hdec
    · exact hf
    · rw [hok] at hdec; cases hdec

/-- Settles O38, class by class. -/
theorem decodedFieldsFollowTheClass : Obligations.DecodedFieldsFollowTheClass := by
  intro w
  unfold decodeFields
  cases classOf (opcodeField w) <;> simp

/-- Settles O39. -/
theorem sampleWordsDecode : Obligations.SampleWordsDecode :=
  ⟨by decide, by decide, by decide, by decide, by decide, by decide, by decide, by decide,
    by decide⟩

end Sys2Proof
end

section
/-! The instructions, each in a Running state (40_alu.md to 43_system.md): what it writes, what it
leaves as it was, and the check it can fail. -/

namespace Sys2Proof.Machine

open Sys2Proof.Claims

/-! ## What the writes of a store, a branch and a halt leave behind -/

theorem setPc_onlyPc (s : State) (target : Word) : OnlyPc s (s.setPc target) target := by
  simp [OnlyPc, SameRegs, SameCells, SameRun]

theorem setCell_advance_writesCell (s : State) (a v : Word) :
    WritesCell s (s.setCell a.toNat v).advance a v := by
  refine ⟨⟨?_, fun b hb => ?_⟩, rfl, fun r => rfl, rfl, rfl, rfl, rfl⟩
  · rw [State.advance_cell, State.cell_setCell, if_pos rfl]
  · rw [State.advance_cell, State.cell_setCell, if_neg hb]

/-! ## The five ALU instructions -/

theorem exec_writesReg_of_eq_execAlu {s : State} {i : Instr} {rd : RegIdx} {v : Word}
    (hrun : s.status = .running) (halu : exec i s = execAlu rd v s) :
    ∃ t, exec i s = .next t ∧ WritesReg s t rd v (s.pc + 4) :=
  ⟨_, halu.trans (execAlu_running hrun rd v), writeReg_advance_writesReg s rd v⟩

/-- Settles O1. -/
theorem addWritesSum : Obligations.AddWritesSum := fun _ _ _ _ hrun =>
  exec_writesReg_of_eq_execAlu hrun (exec_add ..)

/-- Settles O2. -/
theorem subWritesDifference : Obligations.SubWritesDifference := fun _ _ _ _ hrun =>
  exec_writesReg_of_eq_execAlu hrun (exec_sub ..)

/-- Settles O3. -/
theorem addiWritesSum : Obligations.AddiWritesSum := fun _ _ _ _ hrun =>
  exec_writesReg_of_eq_execAlu hrun (exec_addi ..)

/-- Settles O4. -/
theorem luiWritesImmediate : Obligations.LuiWritesImmediate := fun _ _ _ hrun =>
  exec_writesReg_of_eq_execAlu hrun (exec_lui ..)

/-- Settles O5. -/
theorem auipcWritesPcPlusImmediate : Obligations.AuipcWritesPcPlusImmediate := fun _ _ _ hrun =>
  exec_writesReg_of_eq_execAlu hrun (exec_auipc ..)

/-! ## Jumps and branches -/

theorem transfer_aligned {target : Word} (h : target.toNat % 4 = 0) (word : Word)
    (linked s : State) : transfer word target linked s = linked.setPc target :=
  if_pos ((isAligned_iff target).mpr h)

theorem transfer_misaligned {target : Word} (h : target.toNat % 4 ≠ 0) (word : Word)
    (linked s : State) :
    transfer word target linked s = s.raise .misalignedTarget word target :=
  if_neg (mt (isAligned_iff target).mp h)

theorem exec_beq {s : State} (hrun : s.status = .running) (rs1 rs2 : RegIdx) (imm : Word) :
    exec (.beq rs1 rs2 imm) s =
      .next (if s.readReg rs1 = s.readReg rs2 then
        transfer (encode (.beq rs1 rs2 imm)) (s.pc + imm) s s else s.setPc (s.pc + 4)) := by
  refine (whenRunning_running hrun).trans ?_
  simp only [branchTo, regsEqual_iff]
  rfl

theorem exec_bne {s : State} (hrun : s.status = .running) (rs1 rs2 : RegIdx) (imm : Word) :
    exec (.bne rs1 rs2 imm) s =
      .next (if s.readReg rs1 ≠ s.readReg rs2 then
        transfer (encode (.bne rs1 rs2 imm)) (s.pc + imm) s s else s.setPc (s.pc + 4)) := by
  refine (whenRunning_running hrun).trans ?_
  simp only [branchTo, regsDiffer_iff]
  rfl

/-- Settles O6. -/
theorem jalLinksAndJumps : Obligations.JalLinksAndJumps := by
  intro rd imm s hrun haligned
  have hlink := transfer_link hrun (encode (.jal rd imm)) (s.pc + imm) rd
  rw [if_pos haligned] at hlink
  exact ⟨_, exec_jal hrun rd imm, hlink⟩

/-- Settles O7. -/
theorem jalrLinksAndJumpsFromPc : Obligations.JalrLinksAndJumpsFromPc := by
  intro rd rs1 imm s hrun haligned
  have hlink := transfer_link hrun (encode (.jalr rd rs1 imm)) ((s.pc + imm) &&& 0xFFFFFFFE) rd
  rw [if_pos haligned] at hlink
  exact ⟨_, exec_jalr hrun rd rs1 imm, hlink⟩

/-- Settles O8, for the two answers of the comparison. -/
theorem beqBranchesWhenEqual : Obligations.BeqBranchesWhenEqual := by
  intro rs1 rs2 imm s hrun haligned
  refine ⟨_, exec_beq hrun rs1 rs2 imm, ?_⟩
  split_ifs with heq
  · rw [transfer_aligned (haligned heq)]
    exact setPc_onlyPc s _
  · exact setPc_onlyPc s _

/-- Settles O9, for the two answers of the comparison. -/
theorem bneBranchesWhenDifferent : Obligations.BneBranchesWhenDifferent := by
  intro rs1 rs2 imm s hrun haligned
  refine ⟨_, exec_bne hrun rs1 rs2 imm, ?_⟩
  by_cases heq : s.readReg rs1 = s.readReg rs2
  · rw [if_neg (not_not.mpr heq), if_pos heq]
    exact setPc_onlyPc s _
  · rw [if_pos heq, if_neg heq, transfer_aligned (haligned heq)]
    exact setPc_onlyPc s _

/-! ## Loads and stores -/

theorem exec_loadInstr (n : Width) (rd rs1 : RegIdx) (imm : Word) (s : State) :
    exec (loadInstr n rd rs1 imm) s =
      execLoad n (encode (loadInstr n rd rs1 imm)) rd rs1 imm s := by
  cases n <;> rfl

theorem exec_storeInstr (n : Width) (rs1 rs2 : RegIdx) (imm : Word) (s : State) :
    exec (storeInstr n rs1 rs2 imm) s =
      execStore n (encode (storeInstr n rs1 rs2 imm)) rs1 rs2 imm s := by
  cases n <;> rfl

theorem exec_loadInstr_inBounds {s : State} {rs1 : RegIdx} {imm : Word}
    (hrun : s.status = .running)
    (hbound : (effectiveAddress s rs1 imm).toNat < s.config.memCapacity) (n : Width)
    (rd : RegIdx) :
    exec (loadInstr n rd rs1 imm) s =
      .next (s.writeReg rd (n.mask (s.cell (effectiveAddress s rs1 imm).toNat))).advance := by
  rw [exec_loadInstr]
  rcases execLoad_cases hrun n (encode (loadInstr n rd rs1 imm)) rd rs1 imm with ⟨-, he⟩ | ⟨hout, -⟩
  · exact he
  · omega

theorem exec_loadInstr_outOfBounds {s : State} {rs1 : RegIdx} {imm : Word}
    (hrun : s.status = .running)
    (hbound : s.config.memCapacity ≤ (effectiveAddress s rs1 imm).toNat) (n : Width)
    (rd : RegIdx) :
    exec (loadInstr n rd rs1 imm) s =
      .next (s.raise .loadOutOfBounds (encode (loadInstr n rd rs1 imm))
        (effectiveAddress s rs1 imm)) := by
  rw [exec_loadInstr]
  rcases execLoad_cases hrun n (encode (loadInstr n rd rs1 imm)) rd rs1 imm with ⟨hin, -⟩ | ⟨-, he⟩
  · omega
  · exact he

theorem exec_storeInstr_inBounds {s : State} {rs1 : RegIdx} {imm : Word}
    (hrun : s.status = .running)
    (hbound : (effectiveAddress s rs1 imm).toNat < s.config.memCapacity) (n : Width)
    (rs2 : RegIdx) :
    exec (storeInstr n rs1 rs2 imm) s =
      .next (s.setCell (effectiveAddress s rs1 imm).toNat (n.mask (s.readReg rs2))).advance := by
  rw [exec_storeInstr]
  rcases execStore_cases hrun n (encode (storeInstr n rs1 rs2 imm)) rs1 rs2 imm with
    ⟨-, he⟩ | ⟨hout, -⟩
  · exact he
  · omega

theorem exec_storeInstr_outOfBounds {s : State} {rs1 : RegIdx} {imm : Word}
    (hrun : s.status = .running)
    (hbound : s.config.memCapacity ≤ (effectiveAddress s rs1 imm).toNat) (n : Width)
    (rs2 : RegIdx) :
    exec (storeInstr n rs1 rs2 imm) s =
      .next (s.raise .storeOutOfBounds (encode (storeInstr n rs1 rs2 imm))
        (effectiveAddress s rs1 imm)) := by
  rw [exec_storeInstr]
  rcases execStore_cases hrun n (encode (storeInstr n rs1 rs2 imm)) rs1 rs2 imm with
    ⟨hin, -⟩ | ⟨-, he⟩
  · omega
  · exact he

/-- R64, R65: the width as a bitwise mask. -/
def widthMask : Width → Word
  | .byte => 0xFF
  | .half => 0xFFFF
  | .word => 0xFFFFFFFF

theorem mask_eq_and (n : Width) (v : Word) : n.mask v = v &&& widthMask n := by
  cases n with
  | byte => exact Width.mask_byte v
  | half => exact Width.mask_half v
  | word => exact (BitVec.and_allOnes).symm

theorem exec_loadInstr_writesReg {s : State} {rs1 : RegIdx} {imm : Word}
    (hrun : s.status = .running)
    (hbound : (effectiveAddress s rs1 imm).toNat < s.config.memCapacity) (n : Width)
    (rd : RegIdx) :
    ∃ t, exec (loadInstr n rd rs1 imm) s = .next t ∧
      WritesReg s t rd (n.mask (s.cell (effectiveAddress s rs1 imm).toNat)) (s.pc + 4) :=
  ⟨_, exec_loadInstr_inBounds hrun hbound n rd, writeReg_advance_writesReg s rd _⟩

theorem exec_storeInstr_writesCell {s : State} {rs1 : RegIdx} {imm : Word}
    (hrun : s.status = .running)
    (hbound : (effectiveAddress s rs1 imm).toNat < s.config.memCapacity) (n : Width)
    (rs2 : RegIdx) :
    ∃ t, exec (storeInstr n rs1 rs2 imm) s = .next t ∧
      WritesCell s t (effectiveAddress s rs1 imm) (n.mask (s.readReg rs2)) :=
  ⟨_, exec_storeInstr_inBounds hrun hbound n rs2, setCell_advance_writesCell s _ _⟩

/-- Settles O10. -/
theorem lbLoadsLowByte : Obligations.LbLoadsLowByte := by
  intro rd rs1 imm s hrun hbound
  rw [← Width.mask_byte]
  exact exec_loadInstr_writesReg hrun hbound .byte rd

/-- Settles O11. -/
theorem lhLoadsLowHalf : Obligations.LhLoadsLowHalf := by
  intro rd rs1 imm s hrun hbound
  rw [← Width.mask_half]
  exact exec_loadInstr_writesReg hrun hbound .half rd

/-- Settles O12. -/
theorem lwLoadsCell : Obligations.LwLoadsCell := fun rd _ _ _ hrun hbound =>
  exec_loadInstr_writesReg hrun hbound .word rd

/-- Settles O13. -/
theorem sbReplacesCellByLowByte : Obligations.SbReplacesCellByLowByte := by
  intro rs1 rs2 imm s hrun hbound
  rw [← Width.mask_byte]
  exact exec_storeInstr_writesCell hrun hbound .byte rs2

/-- Settles O14. -/
theorem shReplacesCellByLowHalf : Obligations.ShReplacesCellByLowHalf := by
  intro rs1 rs2 imm s hrun hbound
  rw [← Width.mask_half]
  exact exec_storeInstr_writesCell hrun hbound .half rs2

/-- Settles O15. -/
theorem swReplacesCell : Obligations.SwReplacesCell := fun _ rs2 _ _ hrun hbound =>
  exec_storeInstr_writesCell hrun hbound .word rs2

/-! ## EBREAK -/

theorem exec_ebreak {s : State} (hrun : s.status = .running) (rd : RegIdx) (func3 : BitVec 3)
    (rs1 : RegIdx) (imm : Word) : exec (.ebreak rd func3 rs1 imm) s = .next s.halt :=
  whenRunning_running hrun

/-- Settles O16. -/
theorem ebreakHalts : Obligations.EbreakHalts := fun rd func3 rs1 imm s hrun =>
  ⟨s.halt, exec_ebreak hrun rd func3 rs1 imm, s.halt.status_halted.mpr rfl, rfl, rfl, fun _ => rfl,
    fun _ => rfl, rfl, rfl, rfl⟩

/-! ## The checks an instruction can fail -/

/-- R205: only Stop faults come from an instruction. -/
theorem policy_of_fails {s : State} {kind : FaultKind} {addr : Word} {i : Instr}
    (h : Fails s kind addr i) : kind.policy = .stop := by
  cases i with
  | jal | jalr | lb | lh | lw | sb | sh | sw => rw [h.1]; rfl
  | beq | bne => rw [h.2.1]; rfl
  | add | sub | addi | lui | auipc | ebreak => exact h.elim

/-- R201: an instruction that fails its check raises that fault and does nothing else. -/
theorem exec_of_fails {s : State} (hrun : s.status = .running) {kind : FaultKind} {addr : Word}
    {i : Instr} (h : Fails s kind addr i) :
    exec i s = .next (s.raise kind (encode i) addr) := by
  cases i with
  | jal rd imm =>
    obtain ⟨rfl, rfl, hmis⟩ := h
    rw [exec_jal hrun, transfer_misaligned hmis]
  | jalr rd rs1 imm =>
    obtain ⟨rfl, rfl, hmis⟩ := h
    rw [exec_jalr hrun, transfer_misaligned hmis]
  | beq rs1 rs2 imm =>
    obtain ⟨heq, rfl, rfl, hmis⟩ := h
    rw [exec_beq hrun, if_pos heq, transfer_misaligned hmis]
  | bne rs1 rs2 imm =>
    obtain ⟨hne, rfl, rfl, hmis⟩ := h
    rw [exec_bne hrun, if_pos hne, transfer_misaligned hmis]
  | lb rd rs1 imm =>
    obtain ⟨rfl, rfl, hout⟩ := h
    exact exec_loadInstr_outOfBounds hrun hout .byte rd
  | lh rd rs1 imm =>
    obtain ⟨rfl, rfl, hout⟩ := h
    exact exec_loadInstr_outOfBounds hrun hout .half rd
  | lw rd rs1 imm =>
    obtain ⟨rfl, rfl, hout⟩ := h
    exact exec_loadInstr_outOfBounds hrun hout .word rd
  | sb rs1 rs2 imm =>
    obtain ⟨rfl, rfl, hout⟩ := h
    exact exec_storeInstr_outOfBounds hrun hout .byte rs2
  | sh rs1 rs2 imm =>
    obtain ⟨rfl, rfl, hout⟩ := h
    exact exec_storeInstr_outOfBounds hrun hout .half rs2
  | sw rs1 rs2 imm =>
    obtain ⟨rfl, rfl, hout⟩ := h
    exact exec_storeInstr_outOfBounds hrun hout .word rs2
  | add | sub | addi | lui | auipc | ebreak => exact h.elim

theorem exec_stops_of_fails {s : State} (hrun : s.status = .running) {kind : FaultKind}
    {addr : Word} {i : Instr} (h : Fails s kind addr i) :
    ∃ t, exec i s = .next t ∧ Stops s t kind (encode i) addr :=
  ⟨_, exec_of_fails hrun h, raise_stops hrun (policy_of_fails h) (encode i) addr⟩

/-- Settles O17: each of the four fails its check. -/
theorem misalignedTargetStops : Obligations.MisalignedTargetStops :=
  ⟨fun _ _ _ hrun hmis => exec_stops_of_fails hrun ⟨rfl, rfl, hmis⟩,
    fun _ _ _ _ hrun hmis => exec_stops_of_fails hrun ⟨rfl, rfl, hmis⟩,
    fun _ _ _ _ hrun heq hmis => exec_stops_of_fails hrun ⟨heq, rfl, rfl, hmis⟩,
    fun _ _ _ _ hrun hne hmis => exec_stops_of_fails hrun ⟨hne, rfl, rfl, hmis⟩⟩

/-- Settles O18: each of the three fails its check. -/
theorem loadOutOfBoundsStops : Obligations.LoadOutOfBoundsStops := fun _ _ _ _ hrun hout =>
  ⟨exec_stops_of_fails hrun ⟨rfl, rfl, hout⟩, exec_stops_of_fails hrun ⟨rfl, rfl, hout⟩,
    exec_stops_of_fails hrun ⟨rfl, rfl, hout⟩⟩

/-- Settles O19: each of the three fails its check. -/
theorem storeOutOfBoundsStops : Obligations.StoreOutOfBoundsStops := fun _ _ _ _ hrun hout =>
  ⟨exec_stops_of_fails hrun ⟨rfl, rfl, hout⟩, exec_stops_of_fails hrun ⟨rfl, rfl, hout⟩,
    exec_stops_of_fails hrun ⟨rfl, rfl, hout⟩⟩

/-! ## States that are not Running -/

theorem exec_stopped {s : State} (h : s.status ≠ .running) (i : Instr) : exec i s = .next s := by
  cases i <;> exact whenRunning_stopped h

/-- Settles O20. -/
theorem finishedStateNeverChanges : Obligations.FinishedStateNeverChanges := by
  intro s h
  refine ⟨?_, exec_stopped h⟩
  rcases step_cases s with ⟨-, hs⟩ | ⟨hr, -⟩ | ⟨-, hr, -⟩ | ⟨-, hr, -⟩
  · exact hs
  all_goals exact absurd hr h

end Sys2Proof.Machine
end

section
/-! Two instructions in a row: a store and the load or fetch from its cell (20_memory.md R66, R79),
and the two-instruction `li` and `la` (30_encoding.md R116). -/

namespace Sys2Proof.Machine

open Sys2Proof.Claims

/-! ## From one state to the next -/

theorem status_of_sameRun {s t : State} (h : SameRun s t) : t.status = s.status := by
  obtain ⟨hhalted, hfatal, -, -⟩ := h
  rw [State.status, State.status, hhalted, hfatal]

theorem readReg_of_sameRegs {s t : State} (hregs : SameRegs s t) (hconfig : t.config = s.config)
    (r : RegIdx) : t.readReg r = s.readReg r := by
  rw [State.readReg, State.readReg, hregs, hconfig]

theorem readReg_of_writesReg {s t : State} {rd : RegIdx} {v target : Word}
    (h : WritesReg s t rd v target) :
    t.readReg rd = if s.config.x0Hardwired = true ∧ rd = 0 then 0 else v := by
  obtain ⟨hregs, -, -, -, -, -, hconfig⟩ := h
  rw [State.readReg, hconfig]
  split_ifs with hx0
  · rfl
  · rw [hregs, if_pos ⟨rfl, hx0⟩]

/-- The second of two writes to a register is the one that counts. -/
theorem writesReg_trans {s t u : State} {rd : RegIdx} {a b p q : Word}
    (hst : WritesReg s t rd a p) (htu : WritesReg t u rd b q) : WritesReg s u rd b q := by
  obtain ⟨hregs, -, hcells, hhalted, hfatal, hfaults, hconfig⟩ := hst
  obtain ⟨hregs', hpc', hcells', hhalted', hfatal', hfaults', hconfig'⟩ := htu
  refine ⟨fun r => ?_, hpc', fun a => (hcells' a).trans (hcells a), hhalted'.trans hhalted,
    hfatal'.trans hfatal, hfaults'.trans hfaults, hconfig'.trans hconfig⟩
  rw [hregs', hregs, hconfig]
  split_ifs <;> rfl

/-- The value written matters only where the write has an effect. -/
theorem writesReg_congr {s t : State} {rd : RegIdx} {v v' target : Word}
    (h : WritesReg s t rd v target)
    (hv : ¬ (s.config.x0Hardwired = true ∧ rd = 0) → v = v') : WritesReg s t rd v' target := by
  obtain ⟨hregs, hframe⟩ := h
  refine ⟨fun r => ?_, hframe⟩
  rw [hregs]
  split_ifs with hr
  · exact hv hr.2
  · rfl

/-! ## A store, then a load or a fetch from its cell -/

theorem mask_mask (ld st : Width) (v : Word) :
    ld.mask (st.mask v) = v &&&
      (if st = .byte ∨ ld = .byte then 0xFF
       else if st = .half ∨ ld = .half then 0xFFFF else 0xFFFFFFFF) := by
  rw [mask_eq_and, mask_eq_and, BitVec.and_assoc]
  cases st <;> cases ld <;> rfl

/-- Settles O42: the store leaves the base register and the bounds as they were, so the load reads
the cell the store wrote. -/
theorem storeThenLoadRoundTrip : Obligations.StoreThenLoadRoundTrip := by
  intro rd rs1 rs2 imm s hrun hbound st ld
  obtain ⟨t, hstore, ⟨hcell, -⟩, -, hregs, hsame⟩ := exec_storeInstr_writesCell hrun hbound st rs2
  have hconfig : t.config = s.config := hsame.2.2.2
  have haddr : effectiveAddress t rs1 imm = effectiveAddress s rs1 imm := by
    rw [effectiveAddress, effectiveAddress, readReg_of_sameRegs hregs hconfig]
  obtain ⟨u, hload, hu⟩ := exec_loadInstr_writesReg (s := t) (rs1 := rs1) (imm := imm)
    ((status_of_sameRun hsame).trans hrun) (by rwa [haddr, hconfig]) ld rd
  refine ⟨t, u, hstore, hload, ?_⟩
  rw [readReg_of_writesReg hu, hconfig, haddr, hcell, mask_mask]

theorem fetch_eq_of_inBounds {s : State} (h : s.pc.toNat < s.config.memCapacity) :
    s.fetch = some (s.cell s.pc.toNat) :=
  if_pos ((s.inBounds_iff s.pc).mpr h)

/-- Settles O43: a fetch in bounds gives the cell at `pc`, and that is the one the store wrote. -/
theorem storeSeenByNextFetch : Obligations.StoreSeenByNextFetch := by
  intro rs1 rs2 imm s hrun hbound st
  obtain ⟨t, hstore, ⟨hcell, -⟩, hpc, -, -, -, -, hconfig⟩ :=
    exec_storeInstr_writesCell hrun hbound st rs2
  have hfetch (u : State) (hcells : SameCells t u) (hu : u.config = t.config)
      (hupc : u.pc = effectiveAddress s rs1 imm) : u.fetch = some (st.mask (s.readReg rs2)) := by
    rw [fetch_eq_of_inBounds (by rwa [hupc, hu, hconfig]), hupc, hcells, hcell]
  refine ⟨t, st.mask (s.readReg rs2), ?_, hstore,
    fun hnext => hfetch t (fun _ => rfl) rfl (hpc.trans hnext.symm), hfetch⟩
  rw [mask_eq_and]
  cases st <;> rfl

/-! ## li and la -/

/-- R116: bits 11:0 of `v` and of its low part agree. -/
theorem loPart_toNat_mod (v : Word) : (loPart v).toNat % 4096 = v.toNat % 4096 := by
  rw [loPart, BitVec.toNat_signExtend, BitVec.toNat_setWidth, BitVec.extractLsb'_toNat,
    Nat.shiftRight_zero]
  split <;> omega

theorem sub_loPart_toNat_mod (v : Word) : (v - loPart v).toNat % 4096 = 0 := by
  have hmod := loPart_toNat_mod v
  have hlt := (loPart v).isLt
  rw [BitVec.toNat_sub]
  omega

theorem hiPart_eq_sub (v : Word) : hiPart v = v - loPart v :=
  extractLsb'_append_zero_of_multiple (sub_loPart_toNat_mod v)

theorem fitsImmU_hiPart (v : Word) : fitsImmU (hiPart v) = true := by
  rw [hiPart_eq_sub]
  exact decide_eq_true (sub_loPart_toNat_mod v)

theorem hiPart_add_loPart (v : Word) : hiPart v + loPart v = v := by
  rw [hiPart_eq_sub, BitVec.sub_add_cancel]

/-- A value in `rd`, and then an ADDI of `rd` to itself. -/
theorem exec_addi_after_writesReg {s t : State} {rd : RegIdx} {v : Word}
    (hrun : s.status = .running) (ht : WritesReg s t rd v (s.pc + 4)) (imm : Word) :
    ∃ u, exec (.addi rd rd imm) t = .next u ∧ WritesReg s u rd (v + imm) (s.pc + 8) := by
  have ⟨_, hpc, _, hsame⟩ := ht
  obtain ⟨u, haddi, hu⟩ := addiWritesSum rd rd imm t ((status_of_sameRun hsame).trans hrun)
  rw [hpc, BitVec.add_assoc] at hu
  refine ⟨u, haddi, writesReg_congr (writesReg_trans ht hu) fun hx0 => ?_⟩
  rw [readReg_of_writesReg ht, if_neg hx0]

/-- Settles O60: LUI, or AUIPC, leaves the high part in `rd`, and ADDI adds the low part. -/
theorem liAndLaLoadTheirOperand : Obligations.LiAndLaLoadTheirOperand := by
  intro rd v s hrun
  refine ⟨fun hwide => ?_, ?_⟩
  · obtain ⟨t, hlui, ht⟩ := luiWritesImmediate rd (hiPart v) s hrun
    obtain ⟨u, haddi, hu⟩ := exec_addi_after_writesReg hrun ht (loPart v)
    rw [hiPart_add_loPart] at hu
    exact ⟨.lui rd (hiPart v), .addi rd rd (loPart v), t, u, by simp [Pseudo.expand, hwide],
      fitsImmU_hiPart v, fitsImm12_signExtend _, hlui, haddi, hu⟩
  · obtain ⟨t, hauipc, ht⟩ := auipcWritesPcPlusImmediate rd (hiPart (v - s.pc)) s hrun
    obtain ⟨u, haddi, hu⟩ := exec_addi_after_writesReg hrun ht (loPart (v - s.pc))
    rw [BitVec.add_assoc, hiPart_add_loPart, BitVec.add_comm, BitVec.sub_add_cancel] at hu
    exact ⟨.auipc rd (hiPart (v - s.pc)), .addi rd rd (loPart (v - s.pc)), t, u, rfl,
      fitsImmU_hiPart _, fitsImm12_signExtend _, hauipc, haddi, hu⟩

end Sys2Proof.Machine
end

section
/-! A step on the fetched word, for the fetch itself and for the classes of branches, loads, stores,
debug breaks and unrecognized selectors (70_reset_and_hazards.md R247). -/

namespace Sys2Proof.Machine

open Sys2Proof.Claims

/-! ## Fetch and dispatch -/

/-- Settles O21. -/
theorem stepRunsDecodedInstruction : Obligations.StepRunsDecodedInstruction :=
  fun _ _ hrun hbound hdec => step_of_decode_ok hrun (fetch_eq_of_inBounds hbound) hdec

theorem step_of_fetch_outOfBounds {s : State} (hrun : s.status = .running)
    (hbound : s.config.memCapacity ≤ s.pc.toNat) :
    step s = .next (s.raise .fetchOutOfBounds 0 s.pc) := by
  rcases step_cases s with ⟨hstop, -⟩ | ⟨-, -, hs⟩ | ⟨-, -, hin, -⟩ | ⟨-, -, hin, -⟩
  · exact absurd hrun hstop
  · exact hs
  all_goals omega

/-- Settles O22. -/
theorem fetchReadsCellOrStops : Obligations.FetchReadsCellOrStops := fun s =>
  ⟨fetch_eq_of_inBounds, fun hrun hbound =>
    ⟨_, step_of_fetch_outOfBounds hrun hbound, raise_stops hrun rfl 0 s.pc⟩⟩

/-- Settles O23. -/
theorem unrecognizedSelectorSkips : Obligations.UnrecognizedSelectorSkips :=
  fun _ _ hrun hfetch hop => step_skips_of_decode_error hrun hfetch (decode_unrecognized hop)

/-- Settles O32. -/
theorem debugBreakClassHalts : Obligations.DebugBreakClassHalts := by
  intro s w hrun hfetch hop
  refine ⟨s.halt, ?_, rfl, rfl, fun _ => rfl, fun _ => rfl, rfl, rfl, rfl⟩
  rw [step_of_decode_ok hrun hfetch (decode_debugBreak hop), exec_ebreak hrun]

/-! ## Branches -/

/-- R152, R153, R154: what BEQ and BNE share; only a taken branch checks its target. -/
theorem step_branch_outcome {s : State} {w target : Word} {i : Instr} {taken : Prop}
    [Decidable taken] (hrun : s.status = .running) (hfetch : s.fetch = some w)
    (hdec : decode w = .ok i)
    (hexec : exec i s =
      .next (if taken then transfer (encode i) target s s else s.setPc (s.pc + 4))) :
    ∃ t, step s = .next t ∧
      (if taken then
        if target.toNat % 4 = 0 then OnlyPc s t target else Stops s t .misalignedTarget w target
      else OnlyPc s t (s.pc + 4)) := by
  rw [step_of_decode_ok hrun hfetch hdec, hexec, encode_of_decode hdec]
  refine ⟨_, rfl, ?_⟩
  split_ifs with htaken haligned
  · rw [transfer_aligned haligned]
    exact setPc_onlyPc s target
  · rw [transfer_misaligned haligned]
    exact raise_stops hrun rfl w target
  · exact setPc_onlyPc s (s.pc + 4)

/-- Settles O29, along the three ways a word of the class decodes: BEQ, BNE, no instruction. -/
theorem branchClassStep : Obligations.BranchClassStep := by
  intro s w hrun hfetch hop
  rcases func3_branch_cases (func3Field w) with hf3 | hf3 | hf3
  · have hlisted : ¬ 2 ≤ (func3Field w).toNat := by rw [hf3]; decide
    have htaken : (func3Field w = 0 ↔ s.readReg (rs1Field w) = s.readReg (rs2Field w)) ↔
        s.readReg (rs1Field w) = s.readReg (rs2Field w) := by simp [hf3, f3Beq]
    simp only [if_neg hlisted, htaken]
    exact step_branch_outcome hrun hfetch (decode_beq hop hf3) (exec_beq hrun ..)
  · have hlisted : ¬ 2 ≤ (func3Field w).toNat := by rw [hf3]; decide
    have htaken : (func3Field w = 0 ↔ s.readReg (rs1Field w) = s.readReg (rs2Field w)) ↔
        s.readReg (rs1Field w) ≠ s.readReg (rs2Field w) := by simp [hf3, f3Bne]
    simp only [if_neg hlisted, htaken]
    exact step_branch_outcome hrun hfetch (decode_bne hop hf3) (exec_bne hrun ..)
  · simp only [if_pos hf3]
    exact step_skips_of_decode_error hrun hfetch (decode_branch_unlisted hop hf3)

/-! ## Loads and stores -/

theorem fails_loadInstr (s : State) (kind : FaultKind) (addr : Word) (n : Width) (rd rs1 : RegIdx)
    (imm : Word) :
    Fails s kind addr (loadInstr n rd rs1 imm) ↔ kind = .loadOutOfBounds ∧
      addr = effectiveAddress s rs1 imm ∧ s.config.memCapacity ≤ addr.toNat := by
  cases n <;> rfl

theorem fails_storeInstr (s : State) (kind : FaultKind) (addr : Word) (n : Width)
    (rs1 rs2 : RegIdx) (imm : Word) :
    Fails s kind addr (storeInstr n rs1 rs2 imm) ↔ kind = .storeOutOfBounds ∧
      addr = effectiveAddress s rs1 imm ∧ s.config.memCapacity ≤ addr.toNat := by
  cases n <;> rfl

theorem widthMask_of_func3 (n : Width) :
    (if widthFunc3 n = 0 then 0xFF else if widthFunc3 n = 1 then 0xFFFF else 0xFFFFFFFF) =
      widthMask n := by
  cases n <;> rfl

theorem not_three_le_widthFunc3 (n : Width) : ¬ 3 ≤ (widthFunc3 n).toNat := fun h =>
  ne_widthFunc3 h n rfl

/-- Settles O30: a word with the func3 of a width is that width's load, else no instruction. -/
theorem loadClassStep : Obligations.LoadClassStep := by
  intro s w hrun hfetch hop
  rcases func3_width_cases (func3Field w) with ⟨n, hf3⟩ | hf3
  · rw [step_of_decode_ok hrun hfetch (decode_load hop hf3)]
    simp only [hf3, if_neg (not_three_le_widthFunc3 n), widthMask_of_func3, ← mask_eq_and]
    by_cases hbound : (s.readReg (rs1Field w) + immI w).toNat < s.config.memCapacity
    · simp only [if_pos hbound]
      exact exec_loadInstr_writesReg hrun hbound n _
    · simp only [if_neg hbound]
      have hfails := (fails_loadInstr s _ _ n (rdField w) (rs1Field w) (immI w)).mpr
        ⟨rfl, rfl, Nat.le_of_not_lt hbound⟩
      have hstops := exec_stops_of_fails hrun hfails
      rwa [encode_loadInstr_of_fields hop hf3] at hstops
  · simp only [if_pos hf3]
    exact step_skips_of_decode_error hrun hfetch (decode_load_unlisted hop hf3)

/-- Settles O31: a word with the func3 of a width is that width's store, else no instruction. -/
theorem storeClassStep : Obligations.StoreClassStep := by
  intro s w hrun hfetch hop
  rcases func3_width_cases (func3Field w) with ⟨n, hf3⟩ | hf3
  · rw [step_of_decode_ok hrun hfetch (decode_store hop hf3)]
    simp only [hf3, if_neg (not_three_le_widthFunc3 n), widthMask_of_func3, ← mask_eq_and]
    by_cases hbound : (s.readReg (rs1Field w) + immS w).toNat < s.config.memCapacity
    · simp only [if_pos hbound]
      exact exec_storeInstr_writesCell hrun hbound n _
    · simp only [if_neg hbound]
      have hfails := (fails_storeInstr s _ _ n (rs1Field w) (rs2Field w) (immS w)).mpr
        ⟨rfl, rfl, Nat.le_of_not_lt hbound⟩
      have hstops := exec_stops_of_fails hrun hfails
      rwa [encode_storeInstr_of_fields hop hf3] at hstops
  · simp only [if_pos hf3]
    exact step_skips_of_decode_error hrun hfetch (decode_store_unlisted hop hf3)

end Sys2Proof.Machine
end

section
/-! What a step can do, said once, and what follows for every step: the faults it records, the
fields only certain words change, and the invariant (60_exceptions.md, 10_state.md). -/

namespace Sys2Proof.Machine

open Sys2Proof.Claims

/-! ## What an instruction can do -/

/-- The register an instruction names as its destination, where it writes one. -/
def destReg : Instr → Option RegIdx
  | .add rd _ _ | .sub rd _ _ | .addi rd _ _ | .lui rd _ | .auipc rd _ | .jal rd _
  | .jalr rd _ _ | .lb rd _ _ | .lh rd _ _ | .lw rd _ _ => some rd
  | .beq _ _ _ | .bne _ _ _ | .sb _ _ _ | .sh _ _ _ | .sw _ _ _ | .ebreak _ _ _ _ => none

theorem destReg_loadInstr (n : Width) (rd rs1 : RegIdx) (imm : Word) :
    destReg (loadInstr n rd rs1 imm) = some rd := by
  cases n <;> rfl

/-- The states to which instructions that pass their check lead from a Running `s`. The new `pc` is
`pc + 4` or a target that was checked, so it is a multiple of 4 where `pc` was. -/
inductive Completes (s : State) : Instr → State → Prop
  | writesReg {i : Instr} {rd : RegIdx} (v : Word) {target : Word} (hrd : destReg i = some rd)
      (haligned : s.pc.toNat % 4 = 0 → target.toNat % 4 = 0) :
      Completes s i ((s.writeReg rd v).setPc target)
  | jumps {i : Instr} {target : Word} (haligned : s.pc.toNat % 4 = 0 → target.toNat % 4 = 0) :
      Completes s i (s.setPc target)
  | stores {n : Width} {rs1 rs2 : RegIdx} {imm : Word}
      (hbound : (effectiveAddress s rs1 imm).toNat < s.config.memCapacity) :
      Completes s (storeInstr n rs1 rs2 imm)
        (s.setCell (effectiveAddress s rs1 imm).toNat (n.mask (s.readReg rs2))).advance
  | halts {rd : RegIdx} {func3 : BitVec 3} {rs1 : RegIdx} {imm : Word} :
      Completes s (.ebreak rd func3 rs1 imm) s.halt

/-- R36. -/
theorem nextPc_aligned {pc : Word} (h : pc.toNat % 4 = 0) : (pc + 4).toNat % 4 = 0 := by
  bv_omega

theorem writeReg_advance_eq_setPc (s : State) (rd : RegIdx) (v : Word) :
    (s.writeReg rd v).advance = (s.writeReg rd v).setPc (s.pc + 4) := by
  rw [State.advance, State.nextPc, State.writeReg_pc]

theorem completes_of_advance {s : State} {i : Instr} {rd : RegIdx} {v : Word}
    (hexec : exec i s = .next (s.writeReg rd v).advance) (hrd : destReg i = some rd) :
    ∃ t, exec i s = .next t ∧ Completes s i t := by
  rw [writeReg_advance_eq_setPc] at hexec
  exact ⟨_, hexec, .writesReg v hrd nextPc_aligned⟩

theorem fails_or_completes_of_link {s : State} {i : Instr} {rd : RegIdx} {word target : Word}
    (hexec : exec i s = .next (transfer word target (s.writeReg rd s.nextPc) s))
    (hrd : destReg i = some rd)
    (hfails : target.toNat % 4 ≠ 0 → Fails s .misalignedTarget target i) :
    (∃ kind addr, Fails s kind addr i) ∨ ∃ t, exec i s = .next t ∧ Completes s i t := by
  by_cases haligned : target.toNat % 4 = 0
  · rw [transfer_aligned haligned] at hexec
    exact .inr ⟨_, hexec, .writesReg _ hrd fun _ => haligned⟩
  · exact .inl ⟨_, _, hfails haligned⟩

theorem fails_or_completes_of_branch {s : State} {i : Instr} {taken : Prop} [Decidable taken]
    {word target : Word}
    (hexec : exec i s = .next (if taken then transfer word target s s else s.setPc (s.pc + 4)))
    (hfails : taken → target.toNat % 4 ≠ 0 → Fails s .misalignedTarget target i) :
    (∃ kind addr, Fails s kind addr i) ∨ ∃ t, exec i s = .next t ∧ Completes s i t := by
  by_cases htaken : taken
  · by_cases haligned : target.toNat % 4 = 0
    · rw [if_pos htaken, transfer_aligned haligned] at hexec
      exact .inr ⟨_, hexec, .jumps fun _ => haligned⟩
    · exact .inl ⟨_, _, hfails htaken haligned⟩
  · rw [if_neg htaken] at hexec
    exact .inr ⟨_, hexec, .jumps nextPc_aligned⟩

theorem fails_or_completes_loadInstr {s : State} (hrun : s.status = .running) (n : Width)
    (rd rs1 : RegIdx) (imm : Word) :
    (∃ kind addr, Fails s kind addr (loadInstr n rd rs1 imm)) ∨
    ∃ t, exec (loadInstr n rd rs1 imm) s = .next t ∧ Completes s (loadInstr n rd rs1 imm) t := by
  by_cases hbound : (effectiveAddress s rs1 imm).toNat < s.config.memCapacity
  · exact .inr (completes_of_advance (exec_loadInstr_inBounds hrun hbound n rd)
      (destReg_loadInstr n rd rs1 imm))
  · exact .inl ⟨_, _, (fails_loadInstr ..).mpr ⟨rfl, rfl, Nat.le_of_not_lt hbound⟩⟩

theorem fails_or_completes_storeInstr {s : State} (hrun : s.status = .running) (n : Width)
    (rs1 rs2 : RegIdx) (imm : Word) :
    (∃ kind addr, Fails s kind addr (storeInstr n rs1 rs2 imm)) ∨
    ∃ t, exec (storeInstr n rs1 rs2 imm) s = .next t ∧
      Completes s (storeInstr n rs1 rs2 imm) t := by
  by_cases hbound : (effectiveAddress s rs1 imm).toNat < s.config.memCapacity
  · exact .inr ⟨_, exec_storeInstr_inBounds hrun hbound n rs2, .stores hbound⟩
  · exact .inl ⟨_, _, (fails_storeInstr ..).mpr ⟨rfl, rfl, Nat.le_of_not_lt hbound⟩⟩

/-- In a Running state an instruction fails its check or completes. -/
theorem fails_or_completes {s : State} (hrun : s.status = .running) (i : Instr) :
    (∃ kind addr, Fails s kind addr i) ∨ ∃ t, exec i s = .next t ∧ Completes s i t := by
  cases i with
  | add | sub | addi | lui | auipc =>
    exact .inr (completes_of_advance (execAlu_running hrun _ _) rfl)
  | jal rd imm =>
    exact fails_or_completes_of_link (exec_jal hrun rd imm) rfl fun h => ⟨rfl, rfl, h⟩
  | jalr rd rs1 imm =>
    exact fails_or_completes_of_link (exec_jalr hrun rd rs1 imm) rfl fun h => ⟨rfl, rfl, h⟩
  | beq rs1 rs2 imm =>
    exact fails_or_completes_of_branch (exec_beq hrun rs1 rs2 imm) fun ht h => ⟨ht, rfl, rfl, h⟩
  | bne rs1 rs2 imm =>
    exact fails_or_completes_of_branch (exec_bne hrun rs1 rs2 imm) fun ht h => ⟨ht, rfl, rfl, h⟩
  | lb rd rs1 imm => exact fails_or_completes_loadInstr hrun .byte rd rs1 imm
  | lh rd rs1 imm => exact fails_or_completes_loadInstr hrun .half rd rs1 imm
  | lw rd rs1 imm => exact fails_or_completes_loadInstr hrun .word rd rs1 imm
  | sb rs1 rs2 imm => exact fails_or_completes_storeInstr hrun .byte rs1 rs2 imm
  | sh rs1 rs2 imm => exact fails_or_completes_storeInstr hrun .half rs1 rs2 imm
  | sw rs1 rs2 imm => exact fails_or_completes_storeInstr hrun .word rs1 rs2 imm
  | ebreak => exact .inr ⟨_, exec_ebreak hrun .., .halts⟩

/-! ## What a step can do -/

/-- The states a step leads to from `s`: the same one, that of the fault `s` meets, or one in which
the fetched instruction has completed. -/
inductive StepOutcome (s : State) : State → Prop
  | finished (hstop : s.status ≠ .running) : StepOutcome s s
  | faults (r : FaultRecord) (hrun : s.status = .running) (hmeets : Meets s r) :
      StepOutcome s (s.raise r.kind r.word r.addr)
  | completes {t : State} (i : Instr) (hrun : s.status = .running)
      (hdec : decode (s.cell s.pc.toNat) = .ok i) (hdone : Completes s i t) : StepOutcome s t

/-- R206: a step from a Running state that meets a fault raises it and does nothing else. -/
theorem step_of_meets {s : State} (hrun : s.status = .running) {r : FaultRecord}
    (h : Meets s r) : step s = .next (s.raise r.kind r.word r.addr) := by
  obtain ⟨kind, pc, word, addr⟩ := r
  obtain ⟨-, ⟨hout, rfl, rfl, rfl⟩ | ⟨hin, rfl, hword⟩⟩ := h
  · exact step_of_fetch_outOfBounds hrun hout
  · have hfetch := fetch_eq_of_inBounds hin
    rcases hword with ⟨hdec, rfl, rfl⟩ | ⟨hdec, rfl, rfl⟩ | ⟨i, hdec, hfails⟩
    · exact step_of_decode_error hrun hfetch hdec
    · exact step_of_decode_error hrun hfetch hdec
    · rw [step_of_decode_ok hrun hfetch hdec, exec_of_fails hrun hfails, encode_of_decode hdec]

theorem step_answers (s : State) : ∃ t, step s = .next t ∧ StepOutcome s t := by
  have hraise (r : FaultRecord) (hrun : s.status = .running) (hmeets : Meets s r) :
      ∃ t, step s = .next t ∧ StepOutcome s t :=
    ⟨_, step_of_meets hrun hmeets, .faults r hrun hmeets⟩
  rcases step_cases s with ⟨hstop, hs⟩ | ⟨hrun, hout, -⟩ | ⟨r, hrun, hin, hdec, -⟩ |
    ⟨i, hrun, hin, hdec, hs⟩
  · exact ⟨s, hs, .finished hstop⟩
  · exact hraise ⟨.fetchOutOfBounds, s.pc, 0, s.pc⟩ hrun ⟨rfl, .inl ⟨hout, rfl, rfl, rfl⟩⟩
  · cases r with
    | unrecognizedSelector =>
      exact hraise ⟨.decodeFault, s.pc, _, 0⟩ hrun ⟨rfl, .inr ⟨hin, rfl, .inl ⟨hdec, rfl, rfl⟩⟩⟩
    | unrecognizedFunction =>
      exact hraise ⟨.execFault, s.pc, _, 0⟩ hrun
        ⟨rfl, .inr ⟨hin, rfl, .inr (.inl ⟨hdec, rfl, rfl⟩)⟩⟩
  · rcases fails_or_completes hrun i with ⟨kind, addr, hfails⟩ | ⟨t, hexec, hdone⟩
    · exact hraise ⟨kind, s.pc, _, addr⟩ hrun
        ⟨rfl, .inr ⟨hin, rfl, .inr (.inr ⟨i, hdec, hfails⟩)⟩⟩
    · exact ⟨t, hs.trans hexec, .completes i hrun hdec hdone⟩

theorem stepOutcome_of_step {s t : State} (h : step s = .next t) : StepOutcome s t := by
  obtain ⟨u, hu, hout⟩ := step_answers s
  cases hu.symm.trans h
  exact hout

/-! ## The faults of a step -/

theorem exec_answers (i : Instr) (s : State) : ∃ t, exec i s = .next t := by
  by_cases hrun : s.status = .running
  · rcases fails_or_completes hrun i with ⟨kind, addr, hfails⟩ | ⟨t, hexec, -⟩
    · exact ⟨_, exec_of_fails hrun hfails⟩
    · exact ⟨t, hexec⟩
  · exact ⟨s, exec_stopped hrun i⟩

/-- The record a fault leaves is the one it is to leave. -/
theorem raise_faults_of_meets {s : State} {r : FaultRecord} (h : Meets s r) :
    (s.raise r.kind r.word r.addr).faults = s.faults ++ [r] := by
  rw [State.raise_faults, ← h.1]

/-- Settles O47: what `exec` and `step` answer is known where a check fails or a fault is met. -/
theorem everyStepAnswersNext : Obligations.EveryStepAnswersNext := by
  refine ⟨fun i s => ?_, fun s => ?_⟩
  · obtain ⟨t, hexec⟩ := exec_answers i s
    refine ⟨t, hexec, fun hrun kind addr hfails => ?_⟩
    cases hexec.symm.trans (exec_of_fails hrun hfails)
    exact State.raise_faults ..
  · obtain ⟨t, hstep, -⟩ := step_answers s
    refine ⟨t, hstep, fun hrun r hmeets => ?_⟩
    cases hstep.symm.trans (step_of_meets hrun hmeets)
    exact raise_faults_of_meets hmeets

theorem Completes.faults_fatal {s t : State} {i : Instr} (h : Completes s i t) :
    t.faults = s.faults ∧ t.fatal = s.fatal := by
  cases h <;> simp

/-- R203: the policy of each kind, as lists. -/
theorem policy_skip_or_stop (k : FaultKind) :
    (k.policy = .skip ∧ k ∈ [FaultKind.decodeFault, .execFault]) ∨
    (k.policy = .stop ∧ k ∈ [FaultKind.fetchOutOfBounds, .loadOutOfBounds, .storeOutOfBounds,
      .misalignedTarget]) := by
  cases k <;> decide

/-- Settles O48: only the fault a Running state meets appends a record, and its policy decides `pc`
and `fatal`. -/
theorem stepRaisesAtMostOneFault : Obligations.StepRaisesAtMostOneFault := by
  intro s t hstep
  cases stepOutcome_of_step hstep with
  | finished => exact .inl ⟨rfl, rfl⟩
  | completes i _ _ hdone => exact .inl hdone.faults_fatal
  | faults r hrun hmeets =>
    refine .inr ⟨r, raise_faults_of_meets hmeets, hrun, hmeets, fun _ => State.raise_rawReg ..,
      fun _ => State.raise_cell .., State.raise_halted .., ?_⟩
    rcases policy_skip_or_stop r.kind with ⟨hpolicy, hmem⟩ | ⟨hpolicy, hmem⟩
    · exact .inl ⟨hmem, by simp [State.raise_pc, hpolicy], by simp [State.raise_fatal, hpolicy]⟩
    · exact .inr ⟨hmem, by simp [State.raise_pc, hpolicy],
        by simp [State.raise_fatal, hpolicy, ← hmeets.1]⟩

/-! ## What only certain words change -/

/-- Settles O52. -/
theorem configurationNeverChanges : Obligations.ConfigurationNeverChanges := by
  intro s t hstep
  cases stepOutcome_of_step hstep with
  | finished => rfl
  | faults => exact State.raise_config ..
  | completes i _ _ hdone => cases hdone <;> simp

/-- Settles O49: of all instructions only EBREAK touches `halted`, and its word has its selector. -/
theorem onlyDebugBreakSetsHalted : Obligations.OnlyDebugBreakSetsHalted := by
  intro s t hstep
  have hkept (h : t.halted = s.halted) : (s.halted = true → t.halted = true) ∧
      (s.halted = false → t.halted = true →
        opcodeField (s.cell s.pc.toNat) = 0b1110011 ∧ t.pc = s.pc) := by
    rw [h]
    exact ⟨id, fun hfalse htrue => absurd (hfalse.symm.trans htrue) (by decide)⟩
  cases stepOutcome_of_step hstep with
  | finished => exact hkept rfl
  | faults => exact hkept (State.raise_halted ..)
  | completes i _ hdec hdone =>
    cases hdone with
    | writesReg => exact hkept (by simp)
    | jumps => exact hkept rfl
    | stores => exact hkept rfl
    | halts =>
      refine ⟨fun _ => rfl, fun _ _ => ⟨?_, rfl⟩⟩
      rw [← encode_of_decode hdec, encode, (encI_fields ..).1]
      rfl

/-- A word that decodes to a store is of the store class and holds the store's operands. -/
theorem fields_of_decode_storeInstr {w : Word} {n : Width} {rs1 rs2 : RegIdx} {imm : Word}
    (hdec : decode w = .ok (storeInstr n rs1 rs2 imm)) :
    opcodeField w = selStore ∧ rs1Field w = rs1 ∧ immS w = imm := by
  have hfits : fitsImm12 imm = true := by
    rw [← wellFormed_storeInstr n rs1 rs2, wellFormed_of_decode hdec]
  rw [← encode_of_decode hdec, encode_storeInstr, immS_encS_of_fits hfits]
  simp

/-- Settles O50: of all outcomes only a completed store touches a cell. -/
theorem onlyStoresChangeMemory : Obligations.OnlyStoresChangeMemory := by
  intro s t a hstep hcell
  cases stepOutcome_of_step hstep with
  | finished => exact absurd rfl hcell
  | faults => exact absurd (State.raise_cell ..) hcell
  | completes i _ hdec hdone =>
    cases hdone with
    | writesReg => exact absurd (by simp) hcell
    | jumps => exact absurd rfl hcell
    | halts => exact absurd rfl hcell
    | stores hbound =>
      obtain ⟨hop, hrs1, himm⟩ := fields_of_decode_storeInstr hdec
      rw [hrs1, himm]
      rw [State.advance_cell, State.cell_setCell] at hcell
      split_ifs at hcell with ha
      · exact ⟨hop, ha, ha ▸ hbound⟩
      · exact absurd rfl hcell

/-- R34: the encoding of an instruction that writes a register names it as `rd`, in one of seven
classes. -/
theorem fields_of_destReg {i : Instr} {rd : RegIdx} (h : destReg i = some rd) :
    rdField (encode i) = rd ∧
    opcodeField (encode i) ∈ ([0x33, 0x13, 0x37, 0x17, 0x6F, 0x67, 0x03] : List (BitVec 7)) := by
  cases i with
  | beq | bne | sb | sh | sw | ebreak => cases h
  | add | sub | addi | lui | auipc | jal | jalr | lb | lh | lw =>
    cases h
    simp [encode, selAluRegReg, selAluRegImm, selLui, selAuipc, selJal, selJalr, selLoad]

/-- Settles O51: of all outcomes only a completed register write touches a register. -/
theorem onlyNamedDestinationChanges : Obligations.OnlyNamedDestinationChanges := by
  intro s t r hstep hreg
  cases stepOutcome_of_step hstep with
  | finished => exact absurd rfl hreg
  | faults => exact absurd (State.raise_rawReg ..) hreg
  | completes i _ hdec hdone =>
    cases hdone with
    | jumps => exact absurd rfl hreg
    | stores => exact absurd rfl hreg
    | halts => exact absurd rfl hreg
    | writesReg v hrd =>
      obtain ⟨hfield, hop⟩ := fields_of_destReg hrd
      rw [encode_of_decode hdec] at hfield hop
      rw [State.setPc_rawReg, State.rawReg_writeReg] at hreg
      split_ifs at hreg with hr
      · exact ⟨hr.1.trans hfield.symm, hop⟩
      · exact absurd rfl hreg

/-! ## The invariant -/

/-- Settles O46. -/
theorem pcStaysAligned : Obligations.PcStaysAligned := by
  intro s t haligned hstep
  cases stepOutcome_of_step hstep with
  | finished => exact haligned
  | faults =>
    rw [State.raise_pc]
    split_ifs
    · exact nextPc_aligned haligned
    · exact haligned
  | completes i _ _ hdone =>
    cases hdone with
    | writesReg v _ htarget => exact htarget haligned
    | jumps htarget => exact htarget haligned
    | stores => exact nextPc_aligned haligned
    | halts => exact haligned

theorem inv_setPc {s : State} (h : s.Inv) {target : Word} (haligned : target.toNat % 4 = 0) :
    (s.setPc target).Inv := by
  obtain ⟨hlegal, -, hrest⟩ := h
  exact ⟨hlegal, haligned, hrest⟩

/-- R31: the strict variant drops a write to x0. -/
theorem inv_writeReg {s : State} (h : s.Inv) (rd : RegIdx) (v : Word) : (s.writeReg rd v).Inv := by
  obtain ⟨hlegal, hpc, hexcl, hfatal, hstop, hwf, hbound, hx0⟩ := h
  simp only [State.Inv, State.writeReg_config, State.writeReg_pc, State.writeReg_halted,
    State.writeReg_fatal, State.writeReg_faults, State.writeReg_mem]
  refine ⟨hlegal, hpc, hexcl, hfatal, hstop, hwf, hbound, fun hhard => ?_⟩
  rw [State.rawReg_writeReg, if_neg fun hw => hw.2 ⟨hhard, hw.1.symm⟩]
  exact hx0 hhard

theorem inv_setCell {s : State} (h : s.Inv) {a : Nat} (ha : a < s.config.memCapacity) (v : Word) :
    (s.setCell a v).Inv := by
  obtain ⟨hlegal, hpc, hexcl, hfatal, hstop, hwf, hbound, hx0⟩ := h
  refine ⟨hlegal, hpc, hexcl, hfatal, hstop, Memory.wf_write s.mem a v hwf, fun e he => ?_, hx0⟩
  rcases Memory.mem_write s.mem a v e he with rfl | he
  · exact ha
  · exact hbound e he

theorem inv_halt {s : State} (h : s.Inv) (hrun : s.status = .running) : s.halt.Inv := by
  obtain ⟨hlegal, hpc, -, hrest⟩ := h
  obtain ⟨-, hfatal⟩ := (State.status_running s).mp hrun
  refine ⟨hlegal, hpc, ?_, hrest⟩
  rw [State.halt_fatal, hfatal]
  exact fun hboth => absurd hboth.2 (by decide)

/-- R202: a Running state has no Stop record, so the one appended decides. -/
theorem inv_raise {s : State} (h : s.Inv) (hrun : s.status = .running) (kind : FaultKind)
    (word addr : Word) : (s.raise kind word addr).Inv := by
  obtain ⟨hlegal, hpc, -, -, hstop, hwf, hbound, hx0⟩ := h
  obtain ⟨hhalted, hfatal⟩ := (State.status_running s).mp hrun
  have hnone (r : FaultRecord) (hr : r ∈ s.faults) : r.kind.policy ≠ .stop := fun hp =>
    absurd (hfatal.symm.trans (hstop r hr hp)) nofun
  simp only [State.Inv, State.raise_config, State.raise_halted, State.raise_faults,
    State.raise_mem, State.raise_rawReg, hhalted]
  refine ⟨hlegal, ?_, fun hboth => absurd hboth.1 (by decide), ?_, ?_, hwf, hbound, hx0⟩
  · rw [State.raise_pc]
    split_ifs
    · exact nextPc_aligned hpc
    · exact hpc
  · intro r hr
    rw [State.raise_fatal, hfatal] at hr
    split_ifs at hr with hpolicy
    cases hr
    refine ⟨List.getLast?_concat, ?_⟩
    exact (policy_skip_or_stop kind).elim (fun hk => absurd hk.1 hpolicy) And.left
  · intro r hr hp
    rcases List.mem_append.mp hr with hr | hr
    · exact absurd hp (hnone r hr)
    · cases List.mem_singleton.mp hr
      rw [State.raise_fatal, if_neg]
      rw [hp]
      decide

/-- Settles O45, outcome by outcome. -/
theorem stepKeepsInvariant : Obligations.StepKeepsInvariant := by
  intro s t hinv hstep
  have haligned := hinv.2.1
  cases stepOutcome_of_step hstep with
  | finished => exact hinv
  | faults r hrun => exact inv_raise hinv hrun r.kind r.word r.addr
  | completes i hrun _ hdone =>
    cases hdone with
    | writesReg v _ htarget => exact inv_setPc (inv_writeReg hinv _ v) (htarget haligned)
    | jumps htarget => exact inv_setPc hinv (htarget haligned)
    | stores hbound => exact inv_setPc (inv_setCell hinv hbound _) (nextPc_aligned haligned)
    | halts => exact inv_halt hinv hrun

/-! ## Reset -/

theorem create_rawReg (c : Config) (r : RegIdx) : (State.create c).rawReg r = 0 :=
  Vector.getElem_replicate r.isLt

/-- Settles O40. -/
theorem resetValues : Obligations.ResetValues :=
  ⟨fun c => ⟨rfl, rfl, create_rawReg c, rfl, rfl, rfl, fun _ => rfl, rfl⟩, rfl, rfl⟩

theorem inv_create {c : Config} (h : c.legal = true) : (State.create c).Inv :=
  ⟨h, rfl, by simp, by simp, by simp, State.create_mem_wf c, by simp, fun _ => create_rawReg c 0⟩

/-- Settles O44: the capacity of `State.reset` is the largest allowed. -/
theorem invariantHoldsAfterReset : Obligations.InvariantHoldsAfterReset :=
  ⟨fun _ => inv_create, inv_create (by decide)⟩

/-- Settles O41. -/
theorem registerReadsLastWrite : Obligations.RegisterReadsLastWrite := by
  intro s i j v
  rw [State.readReg, State.readReg, State.rawReg_writeReg, State.writeReg_config]
  by_cases hx0 : s.config.x0Hardwired = true ∧ j = 0
  · rw [if_pos hx0, if_pos hx0]
  · rw [if_neg hx0, if_neg hx0, if_neg hx0]
    by_cases hij : j = i
    · subst hij
      rw [if_pos ⟨rfl, hx0⟩, if_pos rfl]
    · rw [if_neg fun h => hij h.1, if_neg hij]

end Sys2Proof.Machine
end

section
/-! The host interface (70_reset_and_hazards.md section 4): runs as iterated steps, the loader as
iterated cell writes, and what `inspect` shows. -/

namespace Sys2Proof.Machine

open Sys2Proof.Claims

/-! ## What a run answers -/

theorem run_succ {s t : State} (hrun : s.status = .running) (hstep : step s = .next t) (n : Nat) :
    run (n + 1) s = run n t := by
  rw [run, if_pos hrun, hstep]

theorem run_stopped {s : State} (h : s.status ≠ .running) (n : Nat) :
    run n s = .next (s, runResult s) := by
  cases n with
  | zero => rfl
  | succ n => rw [run, if_neg h]

theorem run_answers (n : Nat) (s : State) : ∃ t, run n s = .next (t, runResult t) := by
  induction n generalizing s with
  | zero => exact ⟨s, rfl⟩
  | succ n ih =>
    by_cases hrun : s.status = .running
    · obtain ⟨t, hstep, -⟩ := step_answers s
      rw [run_succ hrun hstep]
      exact ih t
    · exact ⟨s, run_stopped hrun (n + 1)⟩

theorem run_add {m : Nat} {s t : State} {r : RunResult} (h : run m s = .next (t, r)) (n : Nat) :
    run (m + n) s = run n t := by
  induction m generalizing s with
  | zero =>
    cases h
    rw [Nat.zero_add]
  | succ m ih =>
    by_cases hrun : s.status = .running
    · obtain ⟨u, hstep, -⟩ := step_answers s
      rw [run_succ hrun hstep] at h
      rw [Nat.add_right_comm, run_succ hrun hstep, ih h]
    · rw [run_stopped hrun] at h
      cases h
      rw [run_stopped hrun, run_stopped hrun]

/-- Settles O53. -/
theorem runCarriesOnAfterBound : Obligations.RunCarriesOnAfterBound :=
  ⟨fun _ => rfl, fun n _ _ hrun hstep => run_succ hrun hstep n, fun _ n _ _ _ h => run_add h n⟩

/-! ## The outcome -/

theorem runResult_of_running {s : State} (h : s.status = .running) :
    runResult s = .boundReached := by
  rw [runResult, h]

theorem runResult_of_halted {s : State} (h : s.status = .halted) : runResult s = .halted := by
  rw [runResult, h]

theorem runResult_of_faulted {s : State} {f : FaultRecord} (h : s.status = .faulted)
    (hfatal : s.fatal = some f) : runResult s = .faulted f := by
  rw [runResult, h, hfatal]

/-- R252: the outcome tells the three statuses apart. -/
theorem runResult_iff (s : State) :
    (runResult s = .boundReached ↔ s.status = .running) ∧
    (runResult s = .halted ↔ s.status = .halted) ∧
    ∀ f, runResult s = .faulted f ↔ s.status = .faulted ∧ s.fatal = some f := by
  cases h : s.status with
  | running => simp [runResult_of_running h]
  | halted => simp [runResult_of_halted h]
  | faulted =>
    obtain ⟨f, hfatal⟩ := Option.isSome_iff_exists.mp ((State.status_faulted s).mp h).2
    simp [runResult_of_faulted h hfatal, hfatal]

/-- Settles O54. -/
theorem runReportsTheStatus : Obligations.RunReportsTheStatus := by
  intro n s
  obtain ⟨t, hrun⟩ := run_answers n s
  exact ⟨fun h => run_stopped h n, t, runResult t, hrun, runResult_iff t⟩

theorem result_of_run {n : Nat} {s t : State} {r : RunResult} (h : run n s = .next (t, r)) :
    r = runResult t := by
  obtain ⟨u, hu⟩ := run_answers n s
  cases hu.symm.trans h
  rfl

/-- Settles O55: each end, carried on for the steps of the other, stays where it is. -/
theorem runEndIsUnique : Obligations.RunEndIsUnique := by
  rintro s t u r q ⟨n, ht, htstop⟩ ⟨m, hu, hustop⟩
  have htu : Host.Outcome.next (t, runResult t) = run m t := (run_stopped htstop m).symm
  rw [← run_add ht, Nat.add_comm, run_add hu, run_stopped hustop] at htu
  cases htu
  exact ⟨rfl, (result_of_run ht).trans (result_of_run hu).symm⟩

/-- Settles O56: the word is a taken branch to itself, so a step answers the same state. -/
theorem selfBranchNeverEnds : Obligations.SelfBranchNeverEnds := by
  intro s hrun hbound haligned hword
  have hdec : decode (s.cell s.pc.toNat) = .ok (.beq 0 0 0) := by rw [hword]; decide
  have hstep : step s = .next s := by
    rw [stepRunsDecodedInstruction s _ hrun hbound hdec, exec_beq hrun, if_pos rfl,
      add_zero, transfer_aligned haligned]
    rfl
  have hhang (n : Nat) : run n s = .next (s, .boundReached) := by
    induction n with
    | zero => rw [run, runResult_of_running hrun]
    | succ n ih => rw [run_succ hrun hstep, ih]
  refine ⟨hhang, ?_⟩
  rintro ⟨t, r, n, hend, hstop⟩
  cases (hhang n).symm.trans hend
  exact hstop hrun

/-! ## The fault log along a run -/

theorem step_keeps_faults {s t : State} (hstep : step s = .next t) : s.faults <+: t.faults := by
  cases stepOutcome_of_step hstep with
  | finished => exact ⟨[], List.append_nil _⟩
  | faults r _ hmeets => exact ⟨[r], (raise_faults_of_meets hmeets).symm⟩
  | completes _ _ _ hdone => rw [hdone.faults_fatal.1]

theorem run_keeps_faults {n : Nat} {s t : State} {r : RunResult} (h : run n s = .next (t, r)) :
    s.faults <+: t.faults := by
  induction n generalizing s with
  | zero => cases h; exact ⟨[], List.append_nil _⟩
  | succ n ih =>
    by_cases hrun : s.status = .running
    · obtain ⟨u, hstep, -⟩ := step_answers s
      rw [run_succ hrun hstep] at h
      exact (step_keeps_faults hstep).trans (ih h)
    · rw [run_stopped hrun] at h
      cases h
      exact ⟨[], List.append_nil _⟩

/-- Settles O57: the rest of the run is a run from the state on the way. -/
theorem runKeepsFaultLog : Obligations.RunKeepsFaultLog := by
  intro m n s u t q r hu ht
  have hrest : u.faults <+: t.faults := run_keeps_faults ((run_add hu n).symm.trans ht)
  refine ⟨run_keeps_faults hu, hrest, fun hclean => ?_⟩
  have hlength := hrest.length_le
  rw [hclean.2] at hlength
  exact List.eq_nil_of_length_eq_zero (Nat.le_zero.mp hlength)

/-! ## The loader -/

theorem placeWords_only_mem (s : State) (base : Nat) (words : List Word) :
    ∃ m, placeWords s base words = { s with mem := m } := by
  induction words generalizing s base with
  | nil => exact ⟨s.mem, rfl⟩
  | cons w rest ih => exact ih (s.setCell base w) (base + 4)

theorem placeWords_cell_of_ne (s : State) (base : Nat) (words : List Word) (a : Nat)
    (ha : ∀ k, k < words.length → a ≠ base + 4 * k) :
    (placeWords s base words).cell a = s.cell a := by
  induction words generalizing s base with
  | nil => rfl
  | cons w rest ih =>
    have hhead : a ≠ base := ha 0 (Nat.succ_pos _)
    have hrest (k : Nat) (hk : k < rest.length) : a ≠ base + 4 + 4 * k := by
      have := ha (k + 1) (Nat.succ_lt_succ hk)
      omega
    rw [placeWords, ih _ _ hrest, State.cell_setCell, if_neg hhead]

theorem placeWords_cell (s : State) (base : Nat) (words : List Word) (k : Nat)
    (hk : k < words.length) : (placeWords s base words).cell (base + 4 * k) = words[k] := by
  induction words generalizing s base k with
  | nil => exact absurd hk (Nat.not_lt_zero k)
  | cons w rest ih =>
    rw [placeWords]
    cases k with
    | zero =>
      rw [placeWords_cell_of_ne _ _ _ _ fun k _ => by omega, State.cell_setCell]
      exact if_pos rfl
    | succ k =>
      rw [show base + 4 * (k + 1) = base + 4 + 4 * k by omega]
      exact ih _ _ k (Nat.lt_of_succ_lt_succ hk)

/-- R243: the check of the last word is the check of every word. -/
theorem loadProgram_eq_none_iff (s : State) (base : Word) (words : List Word) :
    loadProgram s base words = none ↔
      ∃ k, k < words.length ∧ s.config.memCapacity ≤ base.toNat + 4 * k := by
  simp only [loadProgram, ite_eq_right_iff, reduceCtorEq, imp_false, not_or, not_lt]
  constructor
  · rintro ⟨hne, hout⟩
    have := List.length_pos_iff.mpr hne
    exact ⟨words.length - 1, by omega, hout⟩
  · rintro ⟨k, hk, hout⟩
    exact ⟨List.ne_nil_of_length_pos (by omega), by omega⟩

theorem eq_placeWords_of_loadProgram {s t : State} {base : Word} {words : List Word}
    (h : loadProgram s base words = some t) : t = placeWords s base.toNat words := by
  unfold loadProgram at h
  split_ifs at h
  exact (Option.some.inj h).symm

/-- Settles O58. -/
theorem loadProgramPlacesWords : Obligations.LoadProgramPlacesWords := by
  intro s base words
  refine ⟨loadProgram_eq_none_iff s base words, fun t hload => ?_⟩
  rw [eq_placeWords_of_loadProgram hload]
  refine ⟨placeWords_cell s _ words, placeWords_cell_of_ne s _ words, ?_⟩
  obtain ⟨m, hm⟩ := placeWords_only_mem s base.toNat words
  rw [hm]
  exact ⟨fun _ => rfl, ⟨rfl, rfl, rfl, rfl⟩, rfl⟩

/-! ## inspect and create_state -/

theorem inspect_regs (s : State) (r : RegIdx) : (inspect s).2[r.toNat]? = some (s.rawReg r) :=
  Vector.getElem?_eq_getElem r.isLt

/-- Settles O59. -/
theorem inspectAndCreate : Obligations.InspectAndCreate := by
  refine ⟨fun s r => ⟨rfl, inspect_regs s r⟩, fun c r => ⟨rfl, ?_⟩, fun c => ?_⟩
  · rw [inspect_regs, create_rawReg]
  · simp only [createState, Config.legal, Bool.and_eq_true, decide_eq_true_eq]

end Sys2Proof.Machine
end
